-- ==== Sys2Proof/Word.lean ====
section
/-!
DEFINITION. The word types of the engine: bytes, 64-bit register values and byte strings
(spec/00_scope.md R10, R11, R13).
-/

namespace Sys2Proof

/-- An unsigned 8-bit value; bit 0 is the least significant (R11). -/
abbrev Byte := BitVec 8

/-- A 64-bit register value or command word (R10). -/
abbrev Word := BitVec 64

/-- A byte string, index 0 first (R13). -/
abbrev Bytes := List Byte

end Sys2Proof
end

