-- ==== Sys2Proof/Config.lean ====
section
/-!
DEFINITION. What an implementation fixes (spec/00_scope.md R8, R9; spec/20_memory.md R61), and the
free values, which are constants without a body.
-/

namespace Sys2Proof

/-- Byte order of the header's length field: the parameter LEN_ORDER (R9, R14, R77). -/
inductive LenOrder where
  | little
  | big
  deriving DecidableEq, Repr

/-- Case of the hex digits a to f: the parameter HEX_CASE (R9, R78). -/
inductive HexCase where
  | lower
  | upper
  deriving DecidableEq, Repr

/-- Which function the parameter DIGEST is (R9, D16). The function itself cannot stand in plain data,
so a name of it does (log 5). -/
inductive DigestAlg where
  /-- The spec's default: SHA-256, never failing. -/
  | sha256
  /-- The digest service that answers `fail` to every call (95_test_vectors.md SE11). -/
  | failing
  /-- Any other function of the payload: `Config.otherDigest id`, about which nothing is known. -/
  | other (id : Nat)
  deriving DecidableEq, Repr

/-- The parameters of R9 and R61. A `Config` is plain data held in the state and changed by no step, so
a statement about every state is a statement about every setting of the parameters (log 1). -/
structure Config where
  /-- DIGEST. -/
  digest : DigestAlg
  /-- MAGIC, four bytes in order (R76). -/
  magic : Vector Byte 4
  /-- LEN_ORDER. -/
  lenOrder : LenOrder
  /-- HEX_CASE. -/
  hexCase : HexCase
  /-- MEM_BYTES - 1, the last address of buffer memory. Every value is legal, which is exactly
  1 ≤ MEM_BYTES ≤ 2^64 (R9, R50). -/
  lastAddr : Word
  /-- REG_BASE, the platform's place for the register window; no rule of the engine reads it (R61). -/
  regBase : Nat
  /-- MEM_BASE, the platform's place for buffer memory; no rule of the engine reads it (R61). -/
  memBase : Nat
  deriving DecidableEq, Repr

/-- The spec's defaults (R9): SHA-256, "CUIT", little, lower. MEM_BYTES has no default in R9; 0x1000 is
the value that the programs of 95_test_vectors.md section 3 start from. DESIGN CHOICE, unsafe for a
statement about `State.reset` alone (log 2). -/
def Config.standard : Config where
  digest := .sha256
  magic := #v[0x43, 0x55, 0x49, 0x54]
  lenOrder := .little
  hexCase := .lower
  lastAddr := 0xFFF
  regBase := 0
  memBase := 0

/-- A digest function other than SHA-256, one for each name: a 256-bit value, or `none` for `fail`
(R9, R16). Free: nothing constrains it (log 5, safe). -/
opaque Config.otherDigest : Nat → Bytes → Option (BitVec 256)

/-- The digest under the default DIGEST of a payload of 2^61 bytes or more, which the Secure Hash
Standard leaves without a SHA-256 value while R9 says the digest never fails. Free (log 4, safe). -/
opaque Config.overlongDigest : Bytes → BitVec 256

/-- The bytes that R50, R201 and 93 items 8 and 10 leave open, by the count of the draw. Free
(log 8, log 10, safe). -/
opaque Config.freeByte : Nat → Byte

end Sys2Proof
end

