-- ==== Sys2Proof/Machine/State.lean ====
section
/-!
DEFINITION. The state of the machine (spec/10_state.md R20 to R43), the names of what stops a run, and
the state after reset.
-/

namespace Sys2Proof.Machine

/-- The result kinds of R180; their codes are `ResultKind.code`. -/
inductive ResultKind where
  | success
  | invalidPieceCount
  | outputCountMismatch
  | pieceLengthMismatch
  | digestFailure
  | malformedHeader
  | integrityMismatch
  | descriptorError
  | illegalCommand
  deriving DecidableEq, Repr

/-- STATUS, field by field (R26). Bit 3 and bits 63:16 are reserved and hold no storage (R34); the
register as a word is `statusWord` (log 15). -/
structure Status where
  /-- Bit 0: an accepted command has not completed. -/
  busy : Bool
  /-- Bit 1: the last accepted command has completed. -/
  done : Bool
  /-- Bit 2: the host wrote a register while busy since the last acceptance. -/
  ovr : Bool
  /-- Bits 7:4: the result code of the last completed command. -/
  err : BitVec 4
  /-- Bits 15:8: the sub-cause of ERR. -/
  info : BitVec 8
  deriving DecidableEq, Repr

/-- A register offset divided by 8: the 32 slots of the window (R23, R24). There is no narrower, wider or
misaligned register transaction. -/
abbrev Slot := Fin 32

/-- The register at a slot of the window (R23). -/
inductive Reg where
  | cmd
  | status
  | srcAddr
  | srcLen
  | dstAddr
  | dstSize
  | masks
  | paddr (p : Fin 8)
  | psize (p : Fin 8)
  | reserved
  deriving DecidableEq, Repr

/-- A host transaction (R24, R50), or POLL, the loop of R82 over reads of STATUS. -/
inductive HostOp where
  | regRead (slot : Slot)
  | regWrite (slot : Slot) (v : Word)
  | memRd (a : Nat)
  | memWr (a : Nat) (b : Byte)
  | poll
  deriving DecidableEq, Repr

/-- What a host read returned: a register value or a byte (R24, R50). -/
inductive Reply where
  | word (v : Word)
  | byte (b : Byte)
  deriving DecidableEq, Repr

/-- Who makes the next step of the total order of R63. -/
inductive Turn where
  | host
  | engine
  | reset
  deriving DecidableEq, Repr

/-- Bytes by address, in one canonical form (`Memory.wf`): addresses strictly rising. An address that is
not listed holds no value here. -/
abbrev Memory := List Host.Cell

/-- The state. The fields from `status` to `mem` are the engine's state of R21; `cfg` holds the parameters
of R9; the others are the model's own (log 8, log 9, log 11, log 12). -/
structure State where
  /-- The parameters of R9 and R61, changed by no step. -/
  cfg : Config
  /-- STATUS (R26). -/
  status : Status
  /-- SRC_ADDR (R27). -/
  srcAddr : Word
  /-- SRC_LEN (R28). -/
  srcLen : Word
  /-- DST_ADDR (R29). -/
  dstAddr : Word
  /-- DST_SIZE (R30). -/
  dstSize : Word
  /-- MASKS: MASK[m] is byte m (R31, R41). -/
  masks : Word
  /-- PADDR[0..7] (R32). -/
  paddr : Vector Word 8
  /-- PSIZE[0..7] (R33). -/
  psize : Vector Word 8
  /-- LCMD: the accepted command word, none when idle (R39). -/
  lcmd : Option Word
  /-- Buffer memory: the bytes written since reset (R50, R52). -/
  mem : Memory
  /-- Buffer memory: bytes not written since reset whose value is settled all the same, because they were
  written before a reset (R201) or the host has read them (93 item 8). -/
  stale : Memory
  /-- How many free bytes have been drawn. -/
  draws : Nat
  /-- What the host's reads returned, newest first. -/
  replies : List Reply
  /-- The host transactions still to come (R22). -/
  prog : List HostOp
  /-- Who moves next; when the list is empty, the engine if it is busy and else the host. -/
  turns : List Turn
  deriving DecidableEq, Repr

/-- What ends a run of the model. None of these is a trap of the engine, which has none (R186). -/
inductive Fault where
  /-- An engine read of a byte never written since reset (R52, R206 c, 93 item 7), raised by SCATTER,
  PERMUTE, GATHER and UNPERMUTE. Safe. -/
  | unwrittenRead (addr : Nat)
  /-- The HazardFault mark of R204: a host write to buffer memory, or a host read of an output-region byte,
  while BUSY = 1, raised by the host's MemWr and MemRd. Safe (log 6). -/
  | hazardFault
  /-- A host byte transaction at an address that is not below MEM_BYTES, which R50 says does not exist,
  raised by the host's MemRd and MemWr. Safe (log 13). -/
  | outsideMemory (addr : Nat)
  /-- The engine's step with BUSY = 1 and LCMD = none, which no run from reset reaches (R37 to R39), raised
  by the engine's turn. Safe (log 14). -/
  | noLatchedCommand
  deriving DecidableEq, Repr

/-- What the model has no meaning for. -/
inductive Refusal where
  /-- A command that has no meaning yet, raised by `exec`'s arm for it. Safe; no arm uses it. -/
  | notModelled (mnemonic : String)
  deriving DecidableEq, Repr

/-- STATUS after reset: 0 (R43). -/
def Status.reset : Status where
  busy := false
  done := false
  ovr := false
  err := 0
  info := 0

/-- The machine right after reset with the parameters `c` (R43, R200): every register 0, LCMD none, buffer
memory not initialised (nothing listed), no host program and no turn fixed. -/
def State.resetWith (c : Config) : State where
  cfg := c
  status := Status.reset
  srcAddr := 0
  srcLen := 0
  dstAddr := 0
  dstSize := 0
  masks := 0
  paddr := Vector.replicate 8 0
  psize := Vector.replicate 8 0
  lcmd := none
  mem := []
  stale := []
  draws := 0
  replies := []
  prog := []
  turns := []

/-- The machine right after reset with the parameters of `Config.standard` (log 2). -/
def State.reset : State := State.resetWith Config.standard

end Sys2Proof.Machine
end

