-- ==== Sys2Proof/Machine/Flags.lean ====
section
/-!
DEFINITION. STATUS: the register as a word, and every change of it (spec/10_state.md R26, R36 to R38,
R40; spec/60_exceptions.md R180).
-/

namespace Sys2Proof.Machine

/-- The result code of a kind (R180). Codes 9..15 are never produced. -/
def ResultKind.code : ResultKind → BitVec 4
  | .success => 0
  | .invalidPieceCount => 1
  | .outputCountMismatch => 2
  | .pieceLengthMismatch => 3
  | .digestFailure => 4
  | .malformedHeader => 5
  | .integrityMismatch => 6
  | .descriptorError => 7
  | .illegalCommand => 8

/-- STATUS as the 64-bit word RegRead returns: INFO, ERR, the reserved bit 3, OVR, DONE, BUSY, and zeros
above bit 15 (R26, R34). -/
def statusWord (st : Status) : Word :=
  (st.info ++ st.err ++ 0#1 ++ BitVec.ofBool st.ovr ++ BitVec.ofBool st.done
    ++ BitVec.ofBool st.busy : BitVec 16).setWidth 64

/-- Acceptance: STATUS becomes 0x1 (R37). -/
def Status.accepted : Status where
  busy := true
  done := false
  ovr := false
  err := 0
  info := 0

/-- Completion with a result: BUSY = 0, DONE = 1, ERR and INFO set, OVR kept (R38, R184). -/
def Status.completed (st : Status) (k : ResultKind) (info : BitVec 8) : Status where
  busy := false
  done := true
  ovr := st.ovr
  err := k.code
  info := info

/-- A register write while busy sets OVR and nothing else (R36). -/
def Status.overrun (st : Status) : Status := { st with ovr := true }

end Sys2Proof.Machine
end

