-- ==== Sys2Proof/Machine/Bytes.lean ====
section
/-!
DEFINITION. The byte-string primitives of the notation (spec/00_scope.md R12 to R14, R16;
spec/30_encoding.md R77, R78).
-/

namespace Sys2Proof.Machine

/-- `ceil(a / b)` for b ≥ 1 (R12). -/
def ceilDiv (a b : Nat) : Nat := (a + b - 1) / b

/-- `B[i]`, and 0x00 beyond the end, which is what the zero rows of R121 and R125 need. -/
def byteAt (bs : Bytes) (i : Nat) : Byte := (bs[i]?).getD 0

/-- `B[a..b)`: the bytes a to b - 1 (R13). -/
def slice (bs : Bytes) (a b : Nat) : Bytes := (bs.drop a).take (b - a)

/-- `LE64(v)`: the 8 bytes of v, least significant first (R14). -/
def le64 (v : Word) : Bytes := (List.range 8).map fun i => v.extractLsb' (8 * i) 8

/-- `BE64(v)`: the same bytes in reverse order (R14). -/
def be64 (v : Word) : Bytes := (le64 v).reverse

/-- `fromLE64(b)`, the number whose little-endian bytes are b (R14). -/
def fromLE64 (bs : Bytes) : Nat := bs.foldr (fun b acc => b.toNat + 256 * acc) 0

/-- `fromBE64(b)` (R14). -/
def fromBE64 (bs : Bytes) : Nat := fromLE64 bs.reverse

/-- `LEN8(v)`: the length field of the header, in the byte order LEN_ORDER (R14, R77). -/
def len8 (o : LenOrder) (v : Word) : Bytes :=
  match o with
  | .little => le64 v
  | .big => be64 v

/-- `fromLEN8`, the inverse of LEN8 (R14, R77). -/
def fromLen8 (o : LenOrder) (bs : Bytes) : Nat :=
  match o with
  | .little => fromLE64 bs
  | .big => fromBE64 bs

/-- `HexChar(v)` for v in 0..15, in the case HEX_CASE (R78). -/
def hexChar (c : HexCase) (v : BitVec 4) : Byte :=
  if v.toNat ≤ 9 then 0x30 + v.setWidth 8
  else match c with
    | .lower => 0x61 + (v.setWidth 8 - 10)
    | .upper => 0x41 + (v.setWidth 8 - 10)

/-- `d[k]`, byte k of a 256-bit digest in its output order: byte 0 is the most significant (R16; G1). -/
def digestByte (d : BitVec 256) (k : Nat) : Byte := d.extractLsb' (8 * (31 - k)) 8

/-- `HexDigest(d)`: 64 ASCII bytes, digest byte 0 first, high nibble first (R78). -/
def hexDigest (c : HexCase) (d : BitVec 256) : Bytes :=
  (List.range 32).flatMap fun k =>
    [hexChar c ((digestByte d k).extractLsb' 4 4), hexChar c ((digestByte d k).extractLsb' 0 4)]

end Sys2Proof.Machine
end

