-- ==== Sys2Proof/Machine/Digest.lean ====
section
/-!
DEFINITION. The digest service DIGEST (spec/00_scope.md R9, R16; spec/10_state.md R20). Its default,
SHA-256, is named and not defined by the spec; the definition here is the Secure Hash Standard's,
FIPS 180-4 (93_implementation_defined.md G1; PRESUMED, log 3). The digests of H1, H2 and H3 in
95_test_vectors.md check it.
-/

namespace Sys2Proof.Machine

/-- The first 64 primes. -/
def shaPrimes : List Nat :=
  [2, 3, 5, 7, 11, 13, 17, 19, 23, 29, 31, 37, 41, 43, 47, 53] ++
  [59, 61, 67, 71, 73, 79, 83, 89, 97, 101, 103, 107, 109, 113, 127, 131] ++
  [137, 139, 149, 151, 157, 163, 167, 173, 179, 181, 191, 193, 197, 199, 211, 223] ++
  [227, 229, 233, 239, 241, 251, 257, 263, 269, 271, 277, 281, 283, 293, 307, 311]

/-- The greatest r + j with j < 2 ^ k whose e-th power is at most x, found bit by bit from the top. -/
def rootFrom (e x : Nat) : Nat → Nat → Nat
  | 0, r => r
  | k + 1, r =>
    match Nat.ble ((r + 2 ^ k) ^ e) x with
    | true => rootFrom e x k (r + 2 ^ k)
    | false => rootFrom e x k r

/-- The first 32 bits of the fractional part of the e-th root of p, for p < 8 ^ e: the integer root of
p * 2 ^ (32 e) is the e-th root of p with 32 bits after the point. -/
def rootFraction (e p : Nat) : BitVec 32 := BitVec.ofNat 32 (rootFrom e (p * 2 ^ (32 * e)) 35 0)

/-- The round constants of SHA-256: the fractions of the cube roots of the first 64 primes (FIPS 180-4
section 4.2.2). -/
def shaConstants : List (BitVec 32) := shaPrimes.map (rootFraction 3)

/-- The eight working variables of SHA-256. -/
structure ShaState where
  a : BitVec 32
  b : BitVec 32
  c : BitVec 32
  d : BitVec 32
  e : BitVec 32
  f : BitVec 32
  g : BitVec 32
  h : BitVec 32
  deriving DecidableEq, Repr

/-- The initial hash value of SHA-256: the fractions of the square roots of the first 8 primes (FIPS 180-4
section 5.3.3). -/
def shaInitial : ShaState where
  a := rootFraction 2 2
  b := rootFraction 2 3
  c := rootFraction 2 5
  d := rootFraction 2 7
  e := rootFraction 2 11
  f := rootFraction 2 13
  g := rootFraction 2 17
  h := rootFraction 2 19

/-- The message schedule, newest word first: `k` more words before the given ones. -/
def shaSchedule : Nat → List (BitVec 32) → List (BitVec 32)
  | 0, ws => ws
  | k + 1, ws =>
    let w2 := ws.getD 1 0
    let w7 := ws.getD 6 0
    let w15 := ws.getD 14 0
    let w16 := ws.getD 15 0
    let s0 := w15.rotateRight 7 ^^^ w15.rotateRight 18 ^^^ (w15 >>> 3)
    let s1 := w2.rotateRight 17 ^^^ w2.rotateRight 19 ^^^ (w2 >>> 10)
    shaSchedule k ((s1 + w7 + s0 + w16) :: ws)

/-- One round, with its constant and its schedule word. -/
def shaRound (r : ShaState) (kw : BitVec 32 × BitVec 32) : ShaState :=
  let choose := (r.e &&& r.f) ^^^ (~~~r.e &&& r.g)
  let major := (r.a &&& r.b) ^^^ (r.a &&& r.c) ^^^ (r.b &&& r.c)
  let sum0 := r.a.rotateRight 2 ^^^ r.a.rotateRight 13 ^^^ r.a.rotateRight 22
  let sum1 := r.e.rotateRight 6 ^^^ r.e.rotateRight 11 ^^^ r.e.rotateRight 25
  let t1 := r.h + sum1 + choose + kw.1 + kw.2
  let t2 := sum0 + major
  { a := t1 + t2, b := r.a, c := r.b, d := r.c, e := r.d + t1, f := r.e, g := r.f, h := r.g }

/-- One 512-bit block of 16 words. -/
def shaBlock (st : ShaState) (ws : List (BitVec 32)) : ShaState :=
  let r := (shaConstants.zip (shaSchedule 48 ws.reverse).reverse).foldl shaRound st
  { a := st.a + r.a, b := st.b + r.b, c := st.c + r.c, d := st.d + r.d,
    e := st.e + r.e, f := st.f + r.f, g := st.g + r.g, h := st.h + r.h }

/-- The first `k` big-endian 32-bit words of a byte string. -/
def shaWords : Nat → Bytes → List (BitVec 32)
  | 0, _ => []
  | k + 1, bs =>
    (byteAt bs 0 ++ byteAt bs 1 ++ byteAt bs 2 ++ byteAt bs 3 : BitVec 32) :: shaWords k (bs.drop 4)

/-- The padding: one bit 1, zeros up to 8 bytes short of a block's end, and the length in bits. -/
def shaPad (bs : Bytes) : Bytes :=
  bs ++ [0x80] ++ List.replicate ((119 - bs.length % 64) % 64) 0
    ++ be64 (BitVec.ofNat 64 (8 * bs.length))

/-- `k` blocks of 64 bytes, one after another. -/
def shaBlocks : Nat → ShaState → Bytes → ShaState
  | 0, st, _ => st
  | k + 1, st, bs => shaBlocks k (shaBlock st (shaWords 16 bs)) (bs.drop 64)

/-- SHA-256 of a message of fewer than 2^61 bytes. -/
def sha256 (bs : Bytes) : BitVec 256 :=
  let p := shaPad bs
  let r := shaBlocks (p.length / 64) shaInitial p
  (r.a ++ r.b ++ r.c ++ r.d ++ r.e ++ r.f ++ r.g ++ r.h : BitVec 256)

/-- `DIGEST(B)`: a 256-bit value, or `none` where the spec writes `fail` (R9, R16). SHA-256 is defined for
messages of fewer than 2^64 bits; beyond, the default DIGEST is a free value (log 4). -/
def digestOf (c : Config) (bs : Bytes) : Option (BitVec 256) :=
  match c.digest with
  | .sha256 => some (if bs.length < 2 ^ 61 then sha256 bs else Config.overlongDigest bs)
  | .failing => none
  | .other id => Config.otherDigest id bs

end Sys2Proof.Machine
end

