-- ==== Sys2Proof/Machine/Header.lean ====
section
/-!
DEFINITION. The integrity header, framing, and the Gatherer's extraction, trim and comparison
(spec/30_encoding.md R76 to R78; spec/41_scatter.md R120; spec/42_gather.md R154, R155).
-/

namespace Sys2Proof.Machine

/-- HDR_SIZE = 4 + 8 + 64 (R8, R76). -/
def hdrSize : Nat := 76

/-- `BuildHeader(pl, d) = MAGIC ++ LEN8(|pl|) ++ HexDigest(d)` (R76, R120). -/
def buildHeader (c : Config) (pl : Bytes) (d : BitVec 256) : Bytes :=
  c.magic.toList ++ len8 c.lenOrder (BitVec.ofNat 64 pl.length) ++ hexDigest c.hexCase d

/-- `Frame(pl, d)`: the header, then the payload (R120). -/
def frame (c : Config) (pl : Bytes) (d : BitVec 256) : Bytes := buildHeader c pl d ++ pl

/-- `stored_len = fromLEN8(R[4..12))` (R154). The magic bytes R[0..4) are not read (D15). -/
def storedLen (c : Config) (r : Bytes) : Nat := fromLen8 c.lenOrder (slice r 4 12)

/-- `stored_hex = R[12..76)` (R154). -/
def storedHex (r : Bytes) : Bytes := slice r 12 hdrSize

/-- `R[76 .. 76 + stored_len)`: the reconstructed buffer without its header, cut to the stored length
(R155). -/
def trimmed (c : Config) (r : Bytes) : Bytes := slice r hdrSize (hdrSize + storedLen c r)

end Sys2Proof.Machine
end

