-- ==== Sys2Proof/Syntax.lean ====
section
/-!
DEFINITION. The commands of the engine, one constructor per row of spec/opcode_table.json
(spec/30_encoding.md R70, R72, R80).
-/

namespace Sys2Proof

/-- A command. `n` is the N field (piece count) and `k` the K field (number of piece descriptors), the
naturals 0..15 of R71 and R80; which of them are encodable is `Instr.WellFormed`, which of them are legal
operands is checked at execution (R74). -/
inductive Instr where
  /-- GENMASK n: load the mask set for n (R104). -/
  | genmask (n : Nat)
  /-- SCATTER n, k: frame the payload and write n pieces (R126). -/
  | scatter (n k : Nat)
  /-- GATHER n, k: join n pieces, verify and write the payload (R156). -/
  | gather (n k : Nat)
  /-- PERMUTE n, k: the forward permutation alone (R127). -/
  | permute (n k : Nat)
  /-- UNPERMUTE n, k: the inverse permutation alone (R157). -/
  | unpermute (n k : Nat)
  deriving DecidableEq, Repr

end Sys2Proof
end

