-- ==== Sys2Proof/WellFormed.lean ====
section
/-!
DEFINITION. Which commands have an encoding: the N and K fields are 4 bits wide (spec/30_encoding.md
R70, R71, R80). The operand checks of R74 are no part of this: N = 9 is encodable and fails at execution.
-/

namespace Sys2Proof

/-- A value that fits a 4-bit field of the command word: 0..15 (R70). -/
abbrev FitsField (v : Nat) : Prop := v < 16

/-- Every operand fits its field. A predicate on the constructor, decidable. -/
abbrev Instr.WellFormed (i : Instr) : Prop :=
  match i with
  | .genmask n => FitsField n
  | .scatter n k => FitsField n ∧ FitsField k
  | .gather n k => FitsField n ∧ FitsField k
  | .permute n k => FitsField n ∧ FitsField k
  | .unpermute n k => FitsField n ∧ FitsField k

end Sys2Proof
end

