-- ==== Sys2Proof/Decode.lean ====
section
/-!
DEFINITION. Decoding and encoding the 64-bit command word (spec/30_encoding.md R70 to R75). The decoder
is total: a word that is not Legal (R73) is rejected with the name of the clause it breaks.
-/

namespace Sys2Proof

/-- Why a word is not Legal: the three clauses of R73. All of them complete with IllegalCommand(0). -/
inductive DecodeError where
  /-- R73 (a): OP = 0x0 or OP in 0x6..0xF. -/
  | reservedOpcode
  /-- R73 (b): bits 63:12 are not zero. -/
  | reservedBits
  /-- R73 (c): GENMASK with a K field that is not 0. -/
  | genmaskCount
  deriving DecidableEq, Repr

/-- OP = w[3:0] (R71). -/
def opField (w : Word) : BitVec 4 := w.extractLsb' 0 4

/-- N = zext(w[7:4]), 0..15 (R71). -/
def nField (w : Word) : Nat := (w.extractLsb' 4 4).toNat

/-- K = zext(w[11:8]), 0..15 (R71). -/
def kField (w : Word) : Nat := (w.extractLsb' 8 4).toNat

/-- RSV = w[63:12] (R71). -/
def rsvField (w : Word) : BitVec 52 := w.extractLsb' 12 52

/-- The command a word encodes, by the opcode map of R72, or the clause of R73 it breaks. The N and K
fields are operands: any value of them selects the row (R72, R74). -/
def decode (w : Word) : Except DecodeError Instr :=
  if rsvField w ≠ 0 then .error .reservedBits
  else match (opField w).toNat with
    | 1 => if kField w = 0 then .ok (.genmask (nField w)) else .error .genmaskCount
    | 2 => .ok (.scatter (nField w) (kField w))
    | 3 => .ok (.gather (nField w) (kField w))
    | 4 => .ok (.permute (nField w) (kField w))
    | 5 => .ok (.unpermute (nField w) (kField w))
    | _ => .error .reservedOpcode

/-- The canonical word `OP | (N << 4) | (K << 8)` of R70. -/
def commandWord (op n k : Nat) : Word :=
  BitVec.ofNat 64 op ||| (BitVec.ofNat 64 n <<< 4) ||| (BitVec.ofNat 64 k <<< 8)

/-- The word of a command (R70, R80); it means the command when the command is well-formed. -/
def encode : Instr → Word
  | .genmask n => commandWord 1 n 0
  | .scatter n k => commandWord 2 n k
  | .gather n k => commandWord 3 n k
  | .permute n k => commandWord 4 n k
  | .unpermute n k => commandWord 5 n k

/-- What the decoder reads from an instruction of `nbits` bits whose bits are `w`: a command is one 64-bit
value written to CMD (R70, R75), so a longer word with a bit set above bit 63 is none (log 17). -/
def decodeTableWord (nbits w : Nat) : Option Instr :=
  if w % 2 ^ nbits < 2 ^ 64 then (decode (BitVec.ofNat 64 (w % 2 ^ nbits))).toOption else none

/-- The `match` value of the command's row (R72, opcode_table.json). -/
def Instr.rowMatch : Instr → Word
  | .genmask _ => 0x0000000000000001
  | .scatter _ _ => 0x0000000000000002
  | .gather _ _ => 0x0000000000000003
  | .permute _ _ => 0x0000000000000004
  | .unpermute _ _ => 0x0000000000000005

/-- The `mask` value of the command's row (R72, opcode_table.json). -/
def Instr.rowMask : Instr → Word
  | .genmask _ => 0xFFFFFFFFFFFFFF0F
  | .scatter _ _ => 0xFFFFFFFFFFFFF00F
  | .gather _ _ => 0xFFFFFFFFFFFFF00F
  | .permute _ _ => 0xFFFFFFFFFFFFF00F
  | .unpermute _ _ => 0xFFFFFFFFFFFFF00F

end Sys2Proof
end

