-- ==== Sys2Proof/Machine/Memory.lean ====
section
/-!
DEFINITION. Buffer memory as data, and regions of it (spec/20_memory.md R50 to R53).
-/

namespace Sys2Proof.Machine

/-- MEM_BYTES (R9, R50): 1 ≤ MEM_BYTES ≤ 2^64 whatever the configuration. -/
def memBytes (c : Config) : Nat := c.lastAddr.toNat + 1

/-- A run of buffer-memory bytes {base, ..., base + len - 1}, in unbounded arithmetic (R12, R51). -/
structure Region where
  base : Nat
  len : Nat
  deriving DecidableEq, Repr

/-- The region is in memory: it is empty, or it ends at or below MEM_BYTES (R51). -/
abbrev Region.InMem (c : Config) (r : Region) : Prop := r.len = 0 ∨ r.base + r.len ≤ memBytes c

/-- Two regions overlap: both are non-empty and they share an address (R51). -/
abbrev Region.Overlap (r q : Region) : Prop :=
  0 < r.len ∧ 0 < q.len ∧ r.base < q.base + q.len ∧ q.base < r.base + r.len

/-- The address lies in the region (R51). -/
abbrev Region.Has (r : Region) (a : Nat) : Prop := r.base ≤ a ∧ a < r.base + r.len

/-- The byte listed at an address; an address that is not listed holds no value (R52; log 8). This is
the one place that says what an unlisted address reads as. -/
def Memory.read : Memory → Nat → Option Byte
  | [], _ => none
  | (k, b) :: rest, a => if k = a then some b else Memory.read rest a

/-- Set one byte, keeping the addresses strictly rising (R53). -/
def Memory.write : Memory → Nat → Byte → Memory
  | [], a, b => [(a, b)]
  | (k, c) :: rest, a, b =>
    if a < k then (a, b) :: (k, c) :: rest
    else if a = k then (a, b) :: rest
    else (k, c) :: Memory.write rest a b

/-- Set consecutive bytes from an address on: MemWrite of R53. -/
def Memory.writeBytes : Memory → Nat → Bytes → Memory
  | m, _, [] => m
  | m, a, b :: bs => Memory.writeBytes (Memory.write m a b) (a + 1) bs

/-- The `n` bytes from address `a` on, MemRead of R52; or the first of those addresses that holds no
value. -/
def Memory.readBytes (m : Memory) : Nat → Nat → Except Nat Bytes
  | _, 0 => .ok []
  | a, n + 1 =>
    match m.read a with
    | none => .error a
    | some b =>
      match m.readBytes (a + 1) n with
      | .error e => .error e
      | .ok bs => .ok (b :: bs)

/-- Forget the bytes of a region. -/
def Memory.forget (m : Memory) (r : Region) : Memory := m.filter fun c => ¬ r.Has c.1

/-- The bytes of `new` over those of `old`. -/
def Memory.over (new old : Memory) : Memory := new.foldr (fun c m => m.write c.1 c.2) old

/-- The canonical form: addresses strictly rising. No entry can equal what an unlisted address reads as,
since that is no value. -/
abbrev Memory.wf (m : Memory) : Prop := m.Pairwise fun c d => c.1 < d.1

/-- No address is listed in both. -/
abbrev Memory.Apart (m q : Memory) : Prop := ∀ c ∈ m, q.read c.1 = none

/-- Every listed address is one that exists (R50). -/
abbrev Memory.Within (c : Config) (m : Memory) : Prop := ∀ cell ∈ m, cell.1 < memBytes c

end Sys2Proof.Machine
end

