-- ==== Sys2Proof/Machine/Masks.lean ====
section
/-!
DEFINITION. The mask-partition generator (spec/40_maskgen.md R100 to R103) and the packing of the mask
set in MASKS (spec/10_state.md R31, R41).
-/

namespace Sys2Proof.Machine

/-- `GenMasks(N)`: N accumulators at zero; bit position i, from 0 to 7, adds `1 << i` to accumulator
`i mod N`; the accumulators in index order (R100). -/
def genMasks (n : Nat) : List Byte :=
  (List.range 8).foldl (fun acc i => acc.modify (i % n) (· ||| ((1 : Byte) <<< i))) (List.replicate n 0)

/-- `own_N(b) = b mod N`, the index of the mask that owns bit b (R101). -/
def ownN (n b : Nat) : Nat := b % n

/-- The mask set in one register: MASK[m] is byte m, and slots without a mask read 0 (R31). -/
def packMasks (masks : List Byte) : Word :=
  (List.range 8).foldl (fun acc m => acc ||| ((byteAt masks m).setWidth 64 <<< (8 * m))) 0

/-- MASK[m], byte m of MASKS (R31, R41). -/
def maskAt (w : Word) (m : Nat) : Byte := w.extractLsb' (8 * m) 8

end Sys2Proof.Machine
end

