-- ==== Sys2Proof/Machine/Permutation.lean ====
section
/-!
DEFINITION. The forward and the inverse bit permutation (spec/41_scatter.md R121 to R125;
spec/42_gather.md R150 to R152).
-/

namespace Sys2Proof.Machine

/-- `OR over m in 0..n-1 of (e m)` at 8 bits (R17). -/
def orOver (n : Nat) (e : Nat → Byte) : Byte := (List.range n).foldl (fun acc m => acc ||| e m) 0

/-- Row r of group g of a byte string, 0x00 where the string has ended (R121, R125). -/
def groupRow (n : Nat) (f : Bytes) (g r : Nat) : Byte := byteAt f (g * n + r)

/-- `PermGroup_N(G)[p]` for p < N, the group given by its rows (R122). `(p - m) mod N` is computed as
`(p + N - m) mod N` (R12). -/
def permGroup (n : Nat) (masks : List Byte) (rows : Nat → Byte) (p : Nat) : Byte :=
  orOver n fun m => byteAt masks m &&& rows ((p + n - m) % n)

/-- The length of each piece of a byte string of length L: `PLEN = ceil(L / N)` (R121, R124). -/
def pieceLen (n len : Nat) : Nat := ceilDiv len n

/-- Piece p of `Permute(F, N)`: one byte from each group, in order (R124). -/
def permutePiece (n : Nat) (f : Bytes) (p : Nat) : Bytes :=
  (List.range (pieceLen n f.length)).map fun g => permGroup n (genMasks n) (groupRow n f g) p

/-- `Permute(F, N)`: the N pieces (R124). -/
def permute (n : Nat) (f : Bytes) : List Bytes := (List.range n).map (permutePiece n f)

/-- `UnpermCol_N(P, i)[r]` for r < N (R150). -/
def unpermCol (n : Nat) (masks : List Byte) (pieces : List Bytes) (i r : Nat) : Byte :=
  orOver n fun m => byteAt masks m &&& byteAt (pieces.getD ((r + m) % n) []) i

/-- `Unpermute(P, N)` of N pieces of length `plen`: for every column the N rows in order (R152). -/
def unpermute (n plen : Nat) (pieces : List Bytes) : Bytes :=
  (List.range plen).flatMap fun i => (List.range n).map fun r => unpermCol n (genMasks n) pieces i r

end Sys2Proof.Machine
end

