-- ==== Sys2Proof/Machine/Operands.lean ====
section
/-!
DEFINITION. The operands of a command: the piece count, the piece slots p < N, and the regions that the
descriptor registers name (spec/10_state.md R27 to R33; spec/41_scatter.md R126; spec/42_gather.md R156;
spec/70_reset_and_hazards.md R204).
-/

namespace Sys2Proof.Machine

/-- A legal piece count: NMIN ≤ N ≤ NMAX (R8, R74). -/
abbrev LegalCount (n : Nat) : Prop := 2 ≤ n ∧ n ≤ 8

/-- The N field of a command (R71). -/
def pieceCount : Instr → Nat
  | .genmask n => n
  | .scatter n _ => n
  | .gather n _ => n
  | .permute n _ => n
  | .unpermute n _ => n

/-- The eight descriptor slots (R10). -/
def allSlots : List (Fin 8) := [0, 1, 2, 3, 4, 5, 6, 7]

/-- The slots that take part in a command with piece count N: p < N (R32). -/
def slots (n : Nat) : List (Fin 8) := allSlots.filter fun p => p.val < n

/-- `Src = Region(SRC_ADDR, SRC_LEN)` (R126). -/
def srcRegion (s : State) : Region := { base := s.srcAddr.toNat, len := s.srcLen.toNat }

/-- `Dst = Region(DST_ADDR, DST_SIZE)` (R156). -/
def dstRegion (s : State) : Region := { base := s.dstAddr.toNat, len := s.dstSize.toNat }

/-- `Cap(p)` of R126 and `In(p)` of R156: `Region(PADDR[p], PSIZE[p])`. -/
def pieceRegion (s : State) (p : Fin 8) : Region :=
  { base := (s.paddr[p]).toNat, len := (s.psize[p]).toNat }

/-- The output regions of a command, with `nn = min(N, 8)` (R204). -/
def outputRegionsOf (s : State) : Instr → List Region
  | .genmask _ => []
  | .scatter n _ => (slots (min n 8)).map (pieceRegion s)
  | .gather _ _ => [dstRegion s]
  | .permute n _ => (slots (min n 8)).map (pieceRegion s)
  | .unpermute _ _ => [dstRegion s]

/-- The output regions of the latched command; none for an illegal word and when idle (R204). -/
def outputRegions (s : State) : List Region :=
  match s.lcmd with
  | none => []
  | some w =>
    match decode w with
    | .error _ => []
    | .ok i => outputRegionsOf s i

/-- The address is an output-region byte of the latched command (R204). -/
abbrev OutputByte (s : State) (a : Nat) : Prop := ∃ r ∈ outputRegions s, r.Has a

end Sys2Proof.Machine
end

