-- ==== Sys2Proof/Machine/Ops.lean ====
section
/-!
DEFINITION. The operations that the commands and the host share: reading and writing registers, moving
bytes between buffer memory and a command, acceptance and completion. Completion with a result code is
this engine's only form of exception (spec/60_exceptions.md R180 to R186): `finish` writes STATUS and
clears LCMD; there is no handler, no saved state and no return from it (R186).
-/

namespace Sys2Proof.Machine

/-! ### Acceptance and completion -/

/-- Acceptance of a command word (R37): LCMD <- v and STATUS <- 0x1, nothing else. -/
def accept (v : Word) (s : State) : State := { s with lcmd := some v, status := Status.accepted }

/-- `finish(code, info)` (R15, R38): STATUS takes the result and LCMD becomes none. -/
def finish (k : ResultKind) (info : BitVec 8) (s : State) : State :=
  { s with status := s.status.completed k info, lcmd := none }

/-- Load MASKS from GenMasks(N) (R31, R104). -/
def loadMasks (n : Nat) (s : State) : State := { s with masks := packMasks (genMasks n) }

/-- What ends a command before its outputs are written. -/
inductive Stop where
  /-- `raise <Kind>(info)` of R15: the command completes with that result. -/
  | raised (k : ResultKind) (info : BitVec 8)
  /-- The run of the model ends (the unwritten-read fault of R52). -/
  | fault (f : Fault)
  deriving DecidableEq, Repr

/-- `if not p: raise kind(info)`. -/
def require (p : Prop) [Decidable p] (k : ResultKind) (info : BitVec 8) : Except Stop Unit :=
  if p then .ok () else .error (.raised k info)

/-- The end of a command evaluated in state `s`: with outputs, they are committed and the result is
success; with a raised result, `s` is kept as it is but for `finish` (R38, R58, R182). -/
def conclude (s : State) : Except Stop State → Host.Outcome State Fault Refusal
  | .ok t => .next (finish .success 0 t)
  | .error (.raised k info) => .next (finish k info s)
  | .error (.fault f) => .fault f

/-- The frame of every legal command: the piece-count check, the load of MASKS, then the command's own
checks and effect, whose failure leaves MASKS loaded (R31, R74, R182, R183 steps 2 and 3). -/
def withMasks (n : Nat) (s : State) (effect : State → Except Stop State) :
    Host.Outcome State Fault Refusal :=
  if LegalCount n then conclude (loadMasks n s) (effect (loadMasks n s))
  else conclude s (.error (.raised .invalidPieceCount 0))

/-- The completion of a word that is not Legal: IllegalCommand(0) and no other effect (R73). -/
def completeIllegal (s : State) : Host.Outcome State Fault Refusal :=
  conclude s (.error (.raised .illegalCommand 0))

/-! ### Buffer memory, as the engine uses it -/

/-- MemRead of a region (R52): its bytes, or the unwritten-read fault. -/
def readRegion (s : State) (r : Region) : Except Stop Bytes :=
  match s.mem.readBytes r.base r.len with
  | .ok bs => .ok bs
  | .error a => .error (.fault (.unwrittenRead a))

/-- MemWrite (R53). The bytes written are written since reset, so they are no longer stale. -/
def writeRegion (a : Nat) (bs : Bytes) (s : State) : State :=
  { s with
    mem := s.mem.writeBytes a bs
    stale := s.stale.forget { base := a, len := bs.length } }

/-- Write a piece and its length: MemWrite(PADDR[p], PLEN, P[p]); PSIZE[p] <- PLEN (R126). -/
def storePiece (bs : Bytes) (s : State) (p : Fin 8) : State :=
  let t := writeRegion (s.paddr[p]).toNat bs s
  { t with psize := t.psize.set p (BitVec.ofNat 64 bs.length) }

/-- Write the N pieces in slot order (R126, R127). -/
def storePieces (n : Nat) (pieces : List Bytes) (s : State) : State :=
  (slots n).foldl (fun t (p : Fin 8) => storePiece (pieces.getD p.val []) t p) s

/-- Write the output of GATHER or UNPERMUTE and its length: MemWrite(DST_ADDR, len, bytes);
DST_SIZE <- len (R156, R157). -/
def storeOutput (bs : Bytes) (s : State) : State :=
  let t := writeRegion s.dstAddr.toNat bs s
  { t with dstSize := BitVec.ofNat 64 bs.length }

/-- Read the pieces of the given slots, each of length `plen`, in order (R156, R157). -/
def readPieces (s : State) (plen : Nat) : List (Fin 8) → Except Stop (List Bytes)
  | [] => .ok []
  | p :: ps => do
    let x ← readRegion s { base := (s.paddr[p]).toNat, len := plen }
    let xs ← readPieces s plen ps
    .ok (x :: xs)

/-- The digest of a payload, or DigestFailure(0) (R126, R155). -/
def digestOrRaise (c : Config) (bs : Bytes) : Except Stop (BitVec 256) :=
  match digestOf c bs with
  | some d => .ok d
  | none => .error (.raised .digestFailure 0)

/-! ### Checks that two commands share -/

/-- The three DescriptorError checks of SCATTER and PERMUTE for pieces of length `plen`, in order
(R126, R127, R183 steps 5 to 7). -/
def checkContainers (n plen : Nat) (s : State) : Except Stop Unit := do
  require ((srcRegion s).InMem s.cfg ∧ ∀ p : Fin 8, p.val < n → (pieceRegion s p).InMem s.cfg)
    .descriptorError 1
  require (∀ p : Fin 8, p.val < n → plen ≤ (s.psize[p]).toNat) .descriptorError 2
  require ((∀ p : Fin 8, p.val < n → ¬ (pieceRegion s p).Overlap (srcRegion s)) ∧
      ∀ p q : Fin 8, p.val < q.val → q.val < n → ¬ (pieceRegion s p).Overlap (pieceRegion s q))
    .descriptorError 3

/-- PieceLengthMismatch of GATHER and UNPERMUTE: all N lengths are PSIZE[0] (R156, R157, R183 step 4). -/
def checkEqualLengths (n : Nat) (s : State) : Except Stop Unit :=
  require (∀ p : Fin 8, p.val < n → s.psize[p] = s.psize[(0 : Fin 8)]) .pieceLengthMismatch 0

/-- DescriptorError(1) of GATHER and UNPERMUTE (R156, R157, R183 step 5). -/
def checkInMem (n : Nat) (s : State) : Except Stop Unit :=
  require ((dstRegion s).InMem s.cfg ∧ ∀ p : Fin 8, p.val < n → (pieceRegion s p).InMem s.cfg)
    .descriptorError 1

/-- DescriptorError(3) of GATHER and UNPERMUTE: no input piece overlaps the output (R156, R157, R183
step 7). -/
def checkApart (n : Nat) (s : State) : Except Stop Unit :=
  require (∀ p : Fin 8, p.val < n → ¬ (pieceRegion s p).Overlap (dstRegion s)) .descriptorError 3

/-- Trim and verify (R155, R183 steps 10 and 11): the payload of a reconstructed buffer of at least 76
bytes. -/
def verify (c : Config) (r : Bytes) : Except Stop Bytes := do
  require (storedLen c r ≤ r.length - hdrSize) .malformedHeader 2
  let d ← digestOrRaise c (trimmed c r)
  require (hexDigest c.hexCase d = storedHex r) .integrityMismatch 0
  .ok (trimmed c r)

/-! ### The register window -/

/-- The register at an offset (R23). -/
def regAt (slot : Slot) : Reg :=
  match slot.val with
  | 0 => .cmd
  | 1 => .status
  | 2 => .srcAddr
  | 3 => .srcLen
  | 4 => .dstAddr
  | 5 => .dstSize
  | 6 => .masks
  | 7 => .reserved
  | i + 8 =>
    if h : i < 8 then .paddr ⟨i, h⟩
    else if h : i - 8 < 8 then .psize ⟨i - 8, h⟩
    else .reserved

/-- The value of a register as RegRead returns it: CMD and reserved offsets read 0 (R23, R25, R34). -/
def readReg (s : State) : Reg → Word
  | .cmd => 0
  | .status => statusWord s.status
  | .srcAddr => s.srcAddr
  | .srcLen => s.srcLen
  | .dstAddr => s.dstAddr
  | .dstSize => s.dstSize
  | .masks => s.masks
  | .paddr p => s.paddr[p]
  | .psize p => s.psize[p]
  | .reserved => 0

/-- A register write while idle: descriptors take the value, CMD starts a command, STATUS, MASKS and
reserved offsets ignore it (R25, R26, R31, R34, R35, R37). -/
def writeReg (v : Word) (s : State) : Reg → State
  | .cmd => accept v s
  | .status => s
  | .srcAddr => { s with srcAddr := v }
  | .srcLen => { s with srcLen := v }
  | .dstAddr => { s with dstAddr := v }
  | .dstSize => { s with dstSize := v }
  | .masks => s
  | .paddr p => { s with paddr := s.paddr.set p v }
  | .psize p => { s with psize := s.psize.set p v }
  | .reserved => s

/-- RegWrite (R24): while idle `writeReg`; while busy nothing but OVR <- 1 (R36). -/
def regWrite (slot : Slot) (v : Word) (s : State) : State :=
  if s.status.busy then { s with status := s.status.overrun } else writeReg v s (regAt slot)

/-! ### Reset -/

/-- Buffer memory as it stands, whether its bytes were written since reset or before it. -/
def settledBytes (s : State) : Memory := Memory.over s.mem s.stale

/-- The reset input (R200, R201). Registers and LCMD take their reset values. Buffer memory is not
initialised: its bytes keep their values but are no longer written since reset, and the output-region
bytes of an abandoned command keep none (log 9, log 10). The model's own fields stay as they are. -/
def resetInput (s : State) : State :=
  { State.resetWith s.cfg with
    stale := (outputRegions s).foldl Memory.forget (settledBytes s)
    draws := s.draws
    replies := s.replies
    prog := s.prog
    turns := s.turns }

end Sys2Proof.Machine
end

