-- ==== Sys2Proof/Machine/Gather.lean ====
section
/-!
DEFINITION. The commands of spec/42_gather.md: GATHER and UNPERMUTE.
-/

namespace Sys2Proof.Machine

/-- GATHER after the piece-count check (R156): K = N, equal lengths, the descriptor checks, MemRead of the
pieces, the inverse permutation, the header and digest checks of R154 and R155, and the payload written
with its length when it fits. -/
def gatherEffect (n k : Nat) (s : State) : Except Stop State := do
  require (k = n) .outputCountMismatch 0
  checkEqualLengths n s
  let plen := (s.psize[(0 : Fin 8)]).toNat
  checkInMem n s
  checkApart n s
  let pieces ← readPieces s plen (slots n)
  let r := unpermute n plen pieces
  require (hdrSize ≤ r.length) .malformedHeader 1
  let pl ← verify s.cfg r
  require (storedLen s.cfg r ≤ s.dstSize.toNat) .descriptorError 2
  .ok (storeOutput pl s)

/-- UNPERMUTE after the piece-count check (R157): K = N, equal lengths, the descriptor checks with the
output size before the overlap, MemRead of the pieces, and the whole reconstructed buffer written with its
length. -/
def unpermuteEffect (n k : Nat) (s : State) : Except Stop State := do
  require (k = n) .outputCountMismatch 0
  checkEqualLengths n s
  let plen := (s.psize[(0 : Fin 8)]).toNat
  checkInMem n s
  require (n * plen ≤ s.dstSize.toNat) .descriptorError 2
  checkApart n s
  let pieces ← readPieces s plen (slots n)
  .ok (storeOutput (unpermute n plen pieces) s)

/-- GATHER (R156). -/
def execGather (n k : Nat) (s : State) : Host.Outcome State Fault Refusal :=
  withMasks n s (gatherEffect n k)

/-- UNPERMUTE (R157). -/
def execUnpermute (n k : Nat) (s : State) : Host.Outcome State Fault Refusal :=
  withMasks n s (unpermuteEffect n k)

end Sys2Proof.Machine
end

