-- ==== Sys2Proof/Machine/Maskgen.lean ====
section
/-!
DEFINITION. The command of spec/40_maskgen.md: GENMASK.
-/

namespace Sys2Proof.Machine

/-- GENMASK (R104): check the piece count and load MASKS; nothing else can fail. -/
def execGenmask (n : Nat) (s : State) : Host.Outcome State Fault Refusal :=
  withMasks n s fun t => .ok t

end Sys2Proof.Machine
end

