-- ==== Sys2Proof/Machine/Scatter.lean ====
section
/-!
DEFINITION. The commands of spec/41_scatter.md: SCATTER and PERMUTE.
-/

namespace Sys2Proof.Machine

/-- SCATTER after the piece-count check (R126): K = N, the three descriptor checks for
PLEN = ceil((76 + SRC_LEN) / N), MemRead of the payload, its digest, and the N pieces of the framed
payload written with their length. -/
def scatterEffect (n k : Nat) (s : State) : Except Stop State := do
  require (k = n) .outputCountMismatch 0
  checkContainers n (pieceLen n (hdrSize + s.srcLen.toNat)) s
  let pl ← readRegion s (srcRegion s)
  let d ← digestOrRaise s.cfg pl
  .ok (storePieces n (permute n (frame s.cfg pl d)) s)

/-- PERMUTE after the piece-count check (R127): as SCATTER, on the bare input with
PLEN = ceil(SRC_LEN / N). -/
def permuteEffect (n k : Nat) (s : State) : Except Stop State := do
  require (k = n) .outputCountMismatch 0
  checkContainers n (pieceLen n s.srcLen.toNat) s
  let f ← readRegion s (srcRegion s)
  .ok (storePieces n (permute n f) s)

/-- SCATTER (R126). -/
def execScatter (n k : Nat) (s : State) : Host.Outcome State Fault Refusal :=
  withMasks n s (scatterEffect n k)

/-- PERMUTE (R127). -/
def execPermute (n k : Nat) (s : State) : Host.Outcome State Fault Refusal :=
  withMasks n s (permuteEffect n k)

end Sys2Proof.Machine
end

