-- ==== Sys2Proof/Machine/Dispatch.lean ====
section
/-!
DEFINITION. `Execute` of a legal word (spec/30_encoding.md R72): one arm per command, each one call of the
command's meaning, which is its completion step (spec/10_state.md R38).
-/

namespace Sys2Proof.Machine

def exec (i : Instr) (s : State) : Host.Outcome State Fault Refusal :=
  match i with
  | .genmask n => Sys2Proof.Machine.execGenmask n s
  | .scatter n k => Sys2Proof.Machine.execScatter n k s
  | .gather n k => Sys2Proof.Machine.execGather n k s
  | .permute n k => Sys2Proof.Machine.execPermute n k s
  | .unpermute n k => Sys2Proof.Machine.execUnpermute n k s

end Sys2Proof.Machine
end

