-- ==== Sys2Proof/Machine/Engine.lean ====
section
/-!
DEFINITION. The engine agent: its one step, the completion of the latched command (spec/10_state.md R38,
R39; spec/30_encoding.md R72, R73).
-/

namespace Sys2Proof.Machine

/-- The engine's step (R38): enabled exactly when BUSY = 1, it completes the latched command, an illegal
word with IllegalCommand (R72, R73). A turn given to an idle engine passes. -/
def engineTurn (s : State) : Host.Outcome State Fault Refusal :=
  match s.status.busy, s.lcmd with
  | false, _ => .next s
  | true, none => .fault .noLatchedCommand
  | true, some w =>
    match decode w with
    | .ok i => exec i s
    | .error _ => completeIllegal s

end Sys2Proof.Machine
end

