-- ==== Sys2Proof/Machine/HostPort.lean ====
section
/-!
DEFINITION. The host agent: its transactions on the register window and on buffer memory, POLL, and whose
turn it is (spec/10_state.md R20, R24, R36; spec/20_memory.md R50, R57, R63; spec/30_encoding.md R82;
spec/70_reset_and_hazards.md R204 to R207).
-/

namespace Sys2Proof.Machine

/-- Give the host a value it asked for. -/
def reply (r : Reply) (s : State) : State := { s with replies := r :: s.replies }

/-- The byte a host read of address `a` finds, and the state with it settled: a byte written since reset,
a byte settled before, or else a free byte drawn now, which later reads find again (R50, R60, 93 item 8;
log 8). -/
def peekByte (a : Nat) (s : State) : Byte × State :=
  match s.mem.read a with
  | some b => (b, s)
  | none =>
    match s.stale.read a with
    | some b => (b, s)
    | none =>
      (Config.freeByte s.draws,
        { s with stale := s.stale.write a (Config.freeByte s.draws), draws := s.draws + 1 })

/-- RegRead: no side effect (R24, R60), allowed at every time (R205). -/
def hostRegRead (slot : Slot) (s : State) : State := reply (.word (readReg s (regAt slot))) s

/-- MemRd of a byte (R50): outside memory there is no such transaction; while busy an output-region byte
is a HazardFault and any other byte is as at acceptance (R204). -/
def hostMemRd (a : Nat) (s : State) : Host.Outcome State Fault Refusal :=
  if memBytes s.cfg ≤ a then .fault (.outsideMemory a)
  else if s.status.busy ∧ OutputByte s a then .fault .hazardFault
  else .next (reply (.byte (peekByte a s).1) (peekByte a s).2)

/-- MemWr of a byte (R50): outside memory there is no such transaction; while busy any write is a
HazardFault (R204). -/
def hostMemWr (a : Nat) (b : Byte) (s : State) : Host.Outcome State Fault Refusal :=
  if memBytes s.cfg ≤ a then .fault (.outsideMemory a)
  else if s.status.busy then .fault .hazardFault
  else .next (writeRegion a [b] s)

/-- One transaction of the host, taken from its program. POLL reads STATUS and stays in the program while
BUSY = 1 (R82). -/
def hostOp (s : State) : HostOp → Host.Outcome State Fault Refusal
  | .regRead slot => .next (hostRegRead slot s)
  | .regWrite slot v => .next (regWrite slot v s)
  | .memRd a => hostMemRd a s
  | .memWr a b => hostMemWr a b s
  | .poll =>
    let t := hostRegRead 1 s
    if s.status.busy then .next { t with prog := .poll :: t.prog } else .next t

/-- The host's turn: its next transaction, or nothing when its program has ended. -/
def hostTurn (s : State) : Host.Outcome State Fault Refusal :=
  match s.prog with
  | [] => .next s
  | op :: rest => hostOp { s with prog := rest } op

/-- Who moves next: the head of the list of turns; when the list is empty, the engine if a command is in
flight (R207: a busy engine eventually completes) and else the host (log 11). -/
def nextTurn (s : State) : Turn :=
  match s.turns with
  | t :: _ => t
  | [] => if s.status.busy then .engine else .host

/-- The state with the head of the list of turns taken off. -/
def tookTurn (s : State) : State := { s with turns := s.turns.tail }

/-- The engine's turn comes next. -/
def engineNext (s : State) : State := { s with turns := .engine :: s.turns }

end Sys2Proof.Machine
end

