-- ==== Sys2Proof/Machine/Step.lean ====
section
/-!
DEFINITION. One step of the machine: the host's next transaction, the engine's completion, or the reset
input (spec/10_state.md R20, R38; spec/20_memory.md R63). The engine fetches nothing (R22, R65): the
instruction it runs is the latched command word LCMD.
-/

namespace Sys2Proof.Machine

/-- One step of the total order of host transactions, completions and resets (R63). -/
def step (s : State) : Host.Outcome State Fault Refusal :=
  match nextTurn s with
  | .host => hostTurn (tookTurn s)
  | .engine => engineTurn (tookTurn s)
  | .reset => .next (resetInput (tookTurn s))

/-- The state in which the instruction of `nbits` bits `w` is the one the very next step runs: the word has
been accepted (R37) and the engine's turn comes next (log 12). -/
def State.withFetchWord (s : State) (nbits w : Nat) : State :=
  engineNext (accept (BitVec.ofNat 64 (w % 2 ^ nbits)) s)

end Sys2Proof.Machine
end

