-- ==== Sys2Proof/Safety.lean ====
section
/-!
DEFINITION. What counts as a safe state and a safe run, in the words the claims use: the invariant of the
state, the conditions under which a command runs, and what a command reports and leaves alone.
-/

namespace Sys2Proof.Machine

/-- The pairs (ERR, INFO) that R180 and R181 allow. -/
def legalResults : List (BitVec 4 × BitVec 8) :=
  [(0, 0), (1, 0), (2, 0), (3, 0), (4, 0), (5, 1), (5, 2), (6, 0), (7, 1), (7, 2), (7, 3), (8, 0)]

/-- The invariant of the state: BUSY and LCMD agree (R37 to R39); STATUS holds a legal result, none unless a
command has completed (R26, R180, R181); OVR is set only since an acceptance (R26, R36); MASKS is 0 or the
mask set of a legal piece count (R31); buffer memory is in its canonical form, lists only addresses that
exist (R50), and settles no byte twice. -/
structure State.Inv (s : State) : Prop where
  busy_iff : s.status.busy = true ↔ s.lcmd.isSome = true
  not_both : s.status.busy = true → s.status.done = false
  result_legal : (s.status.err, s.status.info) ∈ legalResults
  result_done : s.status.done = false → s.status.err = 0 ∧ s.status.info = 0
  ovr_since : s.status.ovr = true → s.status.busy = true ∨ s.status.done = true
  masks_legal : s.masks = 0 ∨ ∃ n, LegalCount n ∧ s.masks = packMasks (genMasks n)
  mem_wf : s.mem.wf
  stale_wf : s.stale.wf
  mem_within : s.mem.Within s.cfg
  stale_within : s.stale.Within s.cfg
  apart : s.stale.Apart s.mem

/-- The bytes of a region are all written since reset, and are `bs` (R52). -/
abbrev Holds (m : Memory) (r : Region) (bs : Bytes) : Prop :=
  bs.length = r.len ∧ ∀ i < r.len, m.read (r.base + i) = bs[i]?

/-- The descriptors pass every DescriptorError check of SCATTER and PERMUTE for `len` bytes to be split
into n pieces (R126, R127). -/
abbrev ContainersReady (n len : Nat) (s : State) : Prop :=
  (srcRegion s).InMem s.cfg ∧
  (∀ p : Fin 8, p.val < n → (pieceRegion s p).InMem s.cfg) ∧
  (∀ p : Fin 8, p.val < n → pieceLen n len ≤ (s.psize[p]).toNat) ∧
  (∀ p : Fin 8, p.val < n → ¬ (pieceRegion s p).Overlap (srcRegion s)) ∧
  ∀ p q : Fin 8, p.val < q.val → q.val < n → ¬ (pieceRegion s p).Overlap (pieceRegion s q)

/-- The descriptors pass every check of GATHER and UNPERMUTE but the one on the size of the output
(R156, R157). -/
abbrev PiecesReady (n : Nat) (s : State) : Prop :=
  (∀ p : Fin 8, p.val < n → s.psize[p] = s.psize[(0 : Fin 8)]) ∧
  (dstRegion s).InMem s.cfg ∧
  (∀ p : Fin 8, p.val < n → (pieceRegion s p).InMem s.cfg) ∧
  ∀ p : Fin 8, p.val < n → ¬ (pieceRegion s p).Overlap (dstRegion s)

/-- The N pieces in memory are those of the list (R156). -/
abbrev HoldsPieces (n : Nat) (s : State) (pieces : List Bytes) : Prop :=
  pieces.length = n ∧ ∀ p : Fin 8, p.val < n → Holds s.mem (pieceRegion s p) (pieces.getD p.val [])

/-- The containers' bytes that pieces of length `plen` fill: Region(PADDR[p], PLEN) for p < N (R79). -/
def filledRegions (n plen : Nat) (s : State) : List Region :=
  (slots n).map fun p => { base := (s.paddr[p]).toNat, len := plen }

/-- The command has completed with this result: BUSY = 0, DONE = 1, OVR kept, LCMD none (R38, R184). -/
abbrev Reports (code : BitVec 4) (info : BitVec 8) (s t : State) : Prop :=
  t.status = { busy := false, done := true, ovr := s.status.ovr, err := code, info := info } ∧
  t.lcmd = none

/-- MASKS holds the mask set of n, bit by bit: bit b of MASK[m] is 1 exactly when m < n and b mod n = m
(R31, R101). -/
abbrev MasksFor (n : Nat) (t : State) : Prop :=
  ∀ m < 8, ∀ b < 8, t.masks.getLsbD (8 * m + b) = decide (m < n ∧ b % n = m)

/-- The state that no command writes: the parameters, SRC_ADDR, SRC_LEN, DST_ADDR, PADDR, and the fields
of the host (R27 to R29, R32, R42). -/
abbrev KeptByCommand (s t : State) : Prop :=
  t.cfg = s.cfg ∧ t.srcAddr = s.srcAddr ∧ t.srcLen = s.srcLen ∧ t.dstAddr = s.dstAddr ∧
  t.paddr = s.paddr ∧ t.draws = s.draws ∧ t.replies = s.replies ∧ t.prog = s.prog ∧ t.turns = s.turns

/-- Every byte of buffer memory outside the regions is as it was. -/
abbrev KeptOutside (rs : List Region) (s t : State) : Prop :=
  ∀ a, (∀ r ∈ rs, ¬ r.Has a) → t.mem.read a = s.mem.read a ∧ t.stale.read a = s.stale.read a

/-- Flip bit b of byte i of a byte string. -/
def flipBit (bs : Bytes) (i b : Nat) : Bytes := bs.modify i (· ^^^ ((1 : Byte) <<< b))

/-- What a host read of a byte is bound to find, when the model settles it (R50, R200). -/
def settledByte (s : State) (a : Nat) : Option Byte := (s.mem.read a).or (s.stale.read a)

/-- The input regions of a command: what its MemRead reads (R126, R127, R156, R157). -/
def inputRegionsOf (s : State) : Instr → List Region
  | .genmask _ => []
  | .scatter _ _ => [srcRegion s]
  | .gather n _ => (slots n).map (pieceRegion s)
  | .permute _ _ => [srcRegion s]
  | .unpermute n _ => (slots n).map (pieceRegion s)

end Sys2Proof.Machine
end

