-- ==== Sys2Proof/Certificates/Slice0/Obligations.lean ====
section
/-!
DEFINITION. The statements about the engine, one per rule or group of rules of spec/. Nothing is proved
here. Where a statement takes the host's next transaction as given, the host is the one to move
(`nextTurn s = .host`) and its program begins with that transaction; likewise for the engine.
-/

open Sys2Proof Sys2Proof.Machine

/-! ### Encoding (30_encoding.md) -/

/-- Decode and encode agree on every well-formed command, with every value of N and K (R70, R71, R80). -/
def Obligations.DecodeOfEncode : Prop :=
  ∀ i : Instr, i.WellFormed → decode (encode i) = .ok i

/-- Every word that decodes is the word of the command it decodes to, which is well-formed: no bit of a
legal word is dropped, and each legal word has one meaning (R70, R72, R73). -/
def Obligations.EncodeOfDecode : Prop :=
  ∀ (w : Word) (i : Instr), decode w = .ok i → i.WellFormed ∧ encode i = w

/-- Words the spec writes out decode to the commands it gives them (R104, R126, R127, R156, R157 and the
programs of 95_test_vectors.md). -/
def Obligations.SpecWordsDecode : Prop :=
  decode 0x031 = .ok (.genmask 3) ∧ decode 0x222 = .ok (.scatter 2 2) ∧
  decode 0x322 = .ok (.scatter 2 3) ∧ decode 0x223 = .ok (.gather 2 2) ∧
  decode 0x444 = .ok (.permute 4 4) ∧ decode 0x445 = .ok (.unpermute 4 4)

/-- A word selects a row of the opcode table when `(w & mask) = match`, for the five rows (R72). -/
def Obligations.RowSelection : Prop :=
  ∀ w : Word,
    (w &&& 0xFFFFFFFFFFFFFF0F = 0x1 ↔ ∃ n, decode w = .ok (.genmask n)) ∧
    (w &&& 0xFFFFFFFFFFFFF00F = 0x2 ↔ ∃ n k, decode w = .ok (.scatter n k)) ∧
    (w &&& 0xFFFFFFFFFFFFF00F = 0x3 ↔ ∃ n k, decode w = .ok (.gather n k)) ∧
    (w &&& 0xFFFFFFFFFFFFF00F = 0x4 ↔ ∃ n k, decode w = .ok (.permute n k)) ∧
    (w &&& 0xFFFFFFFFFFFFF00F = 0x5 ↔ ∃ n k, decode w = .ok (.unpermute n k))

/-- R73: a latched word completes with IllegalCommand (ERR 8, INFO 0) and no other effect, exactly when
OP is reserved, RSV is not 0, or it is GENMASK with K not 0. The fields are read off the number w. -/
def Obligations.IllegalWordCompletes : Prop :=
  ∀ (s : State) (w : Word),
    nextTurn s = .engine → s.status.busy = true → s.lcmd = some w →
    let op := w.toNat % 16
    let k := w.toNat / 256 % 16
    let rsv := w.toNat / 4096
    if (op = 0 ∨ 6 ≤ op) ∨ rsv ≠ 0 ∨ (op = 1 ∧ k ≠ 0) then
      step s = .next { s with
        turns := s.turns.tail
        status := { busy := false, done := true, ovr := s.status.ovr, err := 8, info := 0 }
        lcmd := none }
    else ∀ t, step s = .next t → t.status.err ≠ 8

/-! ### Masks (40_maskgen.md) -/

/-- R101: bit b of MASK[m] is 1 exactly when b mod N = m. -/
def Obligations.MaskOwnership : Prop :=
  ∀ n, LegalCount n → ∀ m < n, ∀ b < 8, (byteAt (genMasks n) m).getLsbD b = decide (b % n = m)

/-- R102: the masks are pairwise disjoint, their OR is 0xFF, each is non-zero, and MASK[m] has
ceil((8 - m) / N) set bits. -/
def Obligations.MaskPartition : Prop :=
  ∀ n, LegalCount n →
    (∀ m < n, ∀ m' < n, m ≠ m' → byteAt (genMasks n) m &&& byteAt (genMasks n) m' = 0) ∧
    orOver n (byteAt (genMasks n)) = 0xFF ∧
    (∀ m < n, byteAt (genMasks n) m ≠ 0) ∧
    ∀ m < n, ((List.range 8).filter fun b => (byteAt (genMasks n) m).getLsbD b).length
      = (8 - m + n - 1) / n

/-- R103: the MASKS register for every legal N. -/
def Obligations.MaskTable : Prop :=
  packMasks (genMasks 2) = 0x000000000000AA55 ∧ packMasks (genMasks 3) = 0x0000000000249249 ∧
  packMasks (genMasks 4) = 0x0000000088442211 ∧ packMasks (genMasks 5) = 0x0000001008844221 ∧
  packMasks (genMasks 6) = 0x0000201008048241 ∧ packMasks (genMasks 7) = 0x0040201008040281 ∧
  packMasks (genMasks 8) = 0x8040201008040201

/-! ### The permutation (41_scatter.md, 42_gather.md) -/

/-- R123: bit b of output byte p is bit b of row (p - (b mod N)) mod N; so bit b of row r goes to output
byte (r + (b mod N)) mod N, at the same bit position, and to no other. -/
def Obligations.ForwardBit : Prop :=
  ∀ (n : Nat) (rows : Nat → Byte), LegalCount n →
    (∀ p < n, ∀ b < 8, (permGroup n (genMasks n) rows p).getLsbD b
      = (rows ((p + n - b % n) % n)).getLsbD b) ∧
    (∀ r < n, ∀ b < 8, (permGroup n (genMasks n) rows ((r + b % n) % n)).getLsbD b
      = (rows r).getLsbD b) ∧
    ∀ r < n, ∀ b < 8, ∀ p < n, (p + n - b % n) % n = r ↔ p = (r + b % n) % n

/-- R151: bit b of row r of column i is bit b of byte i of piece (r + (b mod N)) mod N. -/
def Obligations.InverseBit : Prop :=
  ∀ (n : Nat) (pieces : List Bytes) (i r b : Nat), LegalCount n → r < n → b < 8 →
    (unpermCol n (genMasks n) pieces i r).getLsbD b
      = (byteAt (pieces.getD ((r + b % n) % n) []) i).getLsbD b

/-- The pieces of a byte string F: N of them, each of length ceil(|F| / N), and byte g of piece p holds, at
bit b, bit b of byte g * N + (p - (b mod N)) mod N of F, or 0 where F has ended (R121, R123 to R125). -/
def Obligations.PermutePieces : Prop :=
  ∀ (n : Nat) (f : Bytes), LegalCount n →
    (permute n f).length = n ∧
    ∀ p < n, ((permute n f).getD p []).length = (f.length + n - 1) / n ∧
      ∀ g < (f.length + n - 1) / n, ∀ b < 8,
        (byteAt ((permute n f).getD p []) g).getLsbD b
          = ((f[g * n + (p + n - b % n) % n]?).getD 0).getLsbD b

/-- R153: the inverse law, both ways. -/
def Obligations.InverseLaw : Prop :=
  ∀ n, LegalCount n →
    (∀ f : Bytes,
      unpermute n (pieceLen n f.length) (permute n f)
        = f ++ List.replicate (n * pieceLen n f.length - f.length) 0 ∧
      f.length ≤ n * pieceLen n f.length ∧ n * pieceLen n f.length - f.length ≤ n - 1) ∧
    ∀ (plen : Nat) (pieces : List Bytes), pieces.length = n → (∀ x ∈ pieces, x.length = plen) →
      permute n (unpermute n plen pieces) = pieces

/-- The number of set bits over one group is kept by the permutation (R128 c). -/
def Obligations.PopcountKept : Prop :=
  ∀ (n : Nat) (rows : Nat → Byte), LegalCount n →
    ((List.range n).map fun p =>
        ((List.range 8).filter fun b => (permGroup n (genMasks n) rows p).getLsbD b).length).sum
      = ((List.range n).map fun r => ((List.range 8).filter fun b => (rows r).getLsbD b).length).sum

/-- For N = 2, P[0][g] = (G[0] & 0x55) | (G[1] & 0xAA) and P[1][g] = (G[1] & 0x55) | (G[0] & 0xAA)
(R128 e). -/
def Obligations.TwoPieceFormula : Prop :=
  ∀ rows : Nat → Byte,
    permGroup 2 (genMasks 2) rows 0 = (rows 0 &&& 0x55) ||| (rows 1 &&& 0xAA) ∧
    permGroup 2 (genMasks 2) rows 1 = (rows 1 &&& 0x55) ||| (rows 0 &&& 0xAA)

/-! ### Header and digest rendering (00_scope.md, 30_encoding.md) -/

/-- R14: LE64 is the 8 bytes from bits 7:0 up to bits 63:56, BE64 the reverse, LEN8 the one that LEN_ORDER
names, and fromLEN8 inverts it. -/
def Obligations.LengthField : Prop :=
  ∀ v : Word,
    (le64 v).length = 8 ∧
    (∀ i < 8, (byteAt (le64 v) i).toNat = v.toNat / 256 ^ i % 256) ∧
    be64 v = (le64 v).reverse ∧ fromLE64 (le64 v) = v.toNat ∧ fromBE64 (be64 v) = v.toNat ∧
    len8 .little v = le64 v ∧ len8 .big v = be64 v ∧
    ∀ o : LenOrder, fromLen8 o (len8 o v) = v.toNat

/-- R78: HexDigest has 64 bytes; bytes 2k and 2k + 1 are the digits of the high and the low nibble of digest
byte k, '0' to '9' and then 'a' to 'f' or 'A' to 'F' as HEX_CASE says. That digest byte k is the k-th most
significant byte of the 256-bit value is the model's choice (DEDUCED, log 20): R16, R78 and G1 give only
"output order" and "byte 0 first". -/
def Obligations.HexRendering : Prop :=
  ∀ (c : HexCase) (d : BitVec 256),
    (hexDigest c d).length = 64 ∧
    ∀ k < 32,
      let byte := d.toNat / 256 ^ (31 - k) % 256
      let letter := match c with
        | .lower => 0x61
        | .upper => 0x41
      let digit := fun v : Nat => if v ≤ 9 then 0x30 + v else letter + (v - 10)
      (byteAt (hexDigest c d) (2 * k)).toNat = digit (byte / 16) ∧
      (byteAt (hexDigest c d) (2 * k + 1)).toNat = digit (byte % 16)

/-- Two digests with the same rendering are equal, so the comparison of the 64 stored bytes is the
comparison of digests (R78, R155). -/
def Obligations.HexRenderingInjective : Prop :=
  ∀ (c : HexCase) (d d' : BitVec 256), hexDigest c d = hexDigest c d' → d = d'

/-- R76: the header is 76 bytes: MAGIC in bytes 0 to 3, LENGTH in 4 to 11, HEXDIGEST in 12 to 75. -/
def Obligations.HeaderLayout : Prop :=
  ∀ (c : Config) (pl : Bytes) (d : BitVec 256),
    (buildHeader c pl d).length = 76 ∧
    slice (buildHeader c pl d) 0 4 = c.magic.toList ∧
    slice (buildHeader c pl d) 4 12 = len8 c.lenOrder (BitVec.ofNat 64 pl.length) ∧
    slice (buildHeader c pl d) 12 76 = hexDigest c.hexCase d

/-- A framed payload parses back, whatever zero tail follows it: the stored length is the payload's, the
stored digest its digest, and the trim gives the payload (R120, R154, R155). -/
def Obligations.FrameParses : Prop :=
  ∀ (c : Config) (pl : Bytes) (d : BitVec 256) (z : Nat), pl.length < 2 ^ 64 →
    storedLen c (frame c pl d ++ List.replicate z 0) = pl.length ∧
    storedHex (frame c pl d ++ List.replicate z 0) = hexDigest c.hexCase d ∧
    trimmed c (frame c pl d ++ List.replicate z 0) = pl

/-! ### Each command's result, and that it completes -/

/-- GENMASK with N in 2..8 completes: MASKS holds the mask set of N, STATUS reports success, and nothing
else changes (R31, R104). -/
def Obligations.GenmaskCompletes : Prop :=
  ∀ (s : State) (n : Nat), LegalCount n →
    ∃ t, exec (.genmask n) s = .next t ∧ MasksFor n t ∧ Reports 0 0 s t ∧
      t = { s with masks := t.masks, status := t.status, lcmd := t.lcmd }

/-- SCATTER with K = N in 2..8, descriptors that pass every check, a payload written since reset and a
digest completes: the N pieces of the framed payload are in the containers' first PLEN bytes, PSIZE[p] is
PLEN for p < N, MASKS is loaded, STATUS reports success, and nothing else changes (R126). -/
def Obligations.ScatterCompletes : Prop :=
  ∀ (s : State) (n : Nat) (pl : Bytes) (d : BitVec 256),
    LegalCount n → ContainersReady n (76 + s.srcLen.toNat) s → Holds s.mem (srcRegion s) pl →
    digestOf s.cfg pl = some d →
    let plen := (76 + s.srcLen.toNat + n - 1) / n
    ∃ t, exec (.scatter n n) s = .next t ∧ MasksFor n t ∧ Reports 0 0 s t ∧ KeptByCommand s t ∧
      t.dstSize = s.dstSize ∧
      (∀ p : Fin 8, p.val < n → (t.psize[p]).toNat = plen) ∧
      (∀ p : Fin 8, n ≤ p.val → t.psize[p] = s.psize[p]) ∧
      (∀ p : Fin 8, p.val < n → ∀ g < plen, ∃ y, t.mem.read ((s.paddr[p]).toNat + g) = some y ∧
        ∀ b < 8, y.getLsbD b
          = (byteAt (frame s.cfg pl d) (g * n + (p.val + n - b % n) % n)).getLsbD b) ∧
      KeptOutside (filledRegions n plen s) s t

/-- PERMUTE with K = N in 2..8, descriptors that pass every check and an input written since reset
completes: as SCATTER on the bare input, with PLEN = ceil(SRC_LEN / N) (R127). -/
def Obligations.PermuteCompletes : Prop :=
  ∀ (s : State) (n : Nat) (f : Bytes),
    LegalCount n → ContainersReady n s.srcLen.toNat s → Holds s.mem (srcRegion s) f →
    let plen := (s.srcLen.toNat + n - 1) / n
    ∃ t, exec (.permute n n) s = .next t ∧ MasksFor n t ∧ Reports 0 0 s t ∧ KeptByCommand s t ∧
      t.dstSize = s.dstSize ∧
      (∀ p : Fin 8, p.val < n → (t.psize[p]).toNat = plen) ∧
      (∀ p : Fin 8, n ≤ p.val → t.psize[p] = s.psize[p]) ∧
      (∀ p : Fin 8, p.val < n → ∀ g < plen, ∃ y, t.mem.read ((s.paddr[p]).toNat + g) = some y ∧
        ∀ b < 8, y.getLsbD b = (byteAt f (g * n + (p.val + n - b % n) % n)).getLsbD b) ∧
      KeptOutside (filledRegions n plen s) s t

/-- GATHER with K = N in 2..8, descriptors that pass every check and pieces written since reset, whose
reconstructed buffer r holds a header with a stored length that fits both the buffer and DST_SIZE and the
digest of the payload it delimits, completes: that payload is at DST_ADDR, DST_SIZE is its length, MASKS is
loaded, STATUS reports success, and nothing else changes (R154 to R156). -/
def Obligations.GatherCompletes : Prop :=
  ∀ (s : State) (n : Nat) (pieces : List Bytes) (d : BitVec 256),
    LegalCount n → PiecesReady n s → HoldsPieces n s pieces →
    let plen := (s.psize[(0 : Fin 8)]).toNat
    let r := unpermute n plen pieces
    let len := fromLen8 s.cfg.lenOrder (slice r 4 12)
    let pl := slice r 76 (76 + len)
    76 ≤ n * plen → len ≤ n * plen - 76 → digestOf s.cfg pl = some d →
    hexDigest s.cfg.hexCase d = slice r 12 76 → len ≤ s.dstSize.toNat →
    ∃ t, exec (.gather n n) s = .next t ∧ MasksFor n t ∧ Reports 0 0 s t ∧ KeptByCommand s t ∧
      t.psize = s.psize ∧ t.dstSize.toNat = len ∧ pl.length = len ∧
      (∀ i < len, t.mem.read (s.dstAddr.toNat + i) = some (byteAt pl i)) ∧
      KeptOutside [{ base := s.dstAddr.toNat, len := len }] s t

/-- UNPERMUTE with K = N in 2..8, descriptors that pass every check and pieces written since reset
completes: byte i * N + r at DST_ADDR holds, at bit b, bit b of byte i of piece (r + (b mod N)) mod N;
DST_SIZE is N * PLEN, MASKS is loaded, STATUS reports success, and nothing else changes (R151, R152,
R157). -/
def Obligations.UnpermuteCompletes : Prop :=
  ∀ (s : State) (n : Nat) (pieces : List Bytes),
    LegalCount n → PiecesReady n s → HoldsPieces n s pieces →
    let plen := (s.psize[(0 : Fin 8)]).toNat
    n * plen ≤ s.dstSize.toNat →
    ∃ t, exec (.unpermute n n) s = .next t ∧ MasksFor n t ∧ Reports 0 0 s t ∧ KeptByCommand s t ∧
      t.psize = s.psize ∧ t.dstSize.toNat = n * plen ∧
      (∀ i < plen, ∀ r < n, ∃ y, t.mem.read (s.dstAddr.toNat + (i * n + r)) = some y ∧
        ∀ b < 8, y.getLsbD b = (byteAt (pieces.getD ((r + b % n) % n) []) i).getLsbD b) ∧
      KeptOutside [{ base := s.dstAddr.toNat, len := n * plen }] s t

/-! ### Failures (60_exceptions.md) -/

/-- N outside 2..8: each of the five commands, whatever K and the descriptors, reports InvalidPieceCount
and changes nothing but STATUS and LCMD; MASKS stays (R74, R31, R183 step 2). -/
def Obligations.IllegalPieceCount : Prop :=
  ∀ (s : State) (n k : Nat), ¬ LegalCount n →
    ∀ i ∈ [Instr.genmask n, .scatter n k, .gather n k, .permute n k, .unpermute n k],
      exec i s = .next { s with
        status := { busy := false, done := true, ovr := s.status.ovr, err := 1, info := 0 }
        lcmd := none }

/-- K ≠ N with N in 2..8: the four commands with descriptors, whatever these are, report
OutputCountMismatch; MASKS is loaded and nothing else changes but STATUS and LCMD (R74, R183 step 3). -/
def Obligations.CountMismatch : Prop :=
  ∀ (s : State) (n k : Nat), LegalCount n → k ≠ n →
    ∀ i ∈ [Instr.scatter n k, .gather n k, .permute n k, .unpermute n k],
      ∃ t, exec i s = .next t ∧ MasksFor n t ∧ Reports 2 0 s t ∧
        t = { s with masks := t.masks, status := t.status, lcmd := t.lcmd }

/-- Pieces of unequal length: GATHER and UNPERMUTE report PieceLengthMismatch before any region is checked
or read and before any digest (R183 step 4). -/
def Obligations.UnequalPieces : Prop :=
  ∀ (s : State) (n : Nat), LegalCount n →
    (∃ p : Fin 8, p.val < n ∧ s.psize[p] ≠ s.psize[(0 : Fin 8)]) →
    ∀ i ∈ [Instr.gather n n, .unpermute n n],
      ∃ t, exec i s = .next t ∧ MasksFor n t ∧ Reports 3 0 s t ∧
        t = { s with masks := t.masks, status := t.status, lcmd := t.lcmd }

/-- The DescriptorError checks of SCATTER and PERMUTE, for L = 76 + SRC_LEN and L = SRC_LEN bytes and
PLEN = ceil(L / N), in order: a region out of memory gives INFO 1; else a container smaller than PLEN INFO
2; else an overlap INFO 3 (R126, R127, R183 steps 5 to 7). -/
def Obligations.ContainerErrors : Prop :=
  ∀ (s : State) (n : Nat), LegalCount n →
    ∀ c ∈ [(Instr.scatter n n, 76 + s.srcLen.toNat), (.permute n n, s.srcLen.toNat)],
      let outside := ¬ (srcRegion s).InMem s.cfg ∨
        ∃ p : Fin 8, p.val < n ∧ ¬ (pieceRegion s p).InMem s.cfg
      let small := ∃ p : Fin 8, p.val < n ∧ (s.psize[p]).toNat < (c.2 + n - 1) / n
      let overlap := (∃ p : Fin 8, p.val < n ∧ (pieceRegion s p).Overlap (srcRegion s)) ∨
        ∃ p q : Fin 8, p.val < q.val ∧ q.val < n ∧ (pieceRegion s p).Overlap (pieceRegion s q)
      let reports := fun info : BitVec 8 => ∃ t, exec c.1 s = .next t ∧ MasksFor n t ∧
        Reports 7 info s t ∧ t = { s with masks := t.masks, status := t.status, lcmd := t.lcmd }
      (outside → reports 1) ∧ (¬ outside → small → reports 2) ∧
        (¬ outside → ¬ small → overlap → reports 3)

/-- The DescriptorError checks of GATHER and UNPERMUTE on pieces of one length, in order: a region out of
memory gives INFO 1; for UNPERMUTE an output region smaller than N * PLEN then gives INFO 2; an input that
overlaps the output then gives INFO 3 (R156, R157, R183 steps 5 to 7). -/
def Obligations.OutputRegionErrors : Prop :=
  ∀ (s : State) (n : Nat), LegalCount n →
    (∀ p : Fin 8, p.val < n → s.psize[p] = s.psize[(0 : Fin 8)]) →
    let outside := ¬ (dstRegion s).InMem s.cfg ∨
      ∃ p : Fin 8, p.val < n ∧ ¬ (pieceRegion s p).InMem s.cfg
    let small := s.dstSize.toNat < n * (s.psize[(0 : Fin 8)]).toNat
    let overlap := ∃ p : Fin 8, p.val < n ∧ (pieceRegion s p).Overlap (dstRegion s)
    let reports := fun (i : Instr) (info : BitVec 8) => ∃ t, exec i s = .next t ∧ MasksFor n t ∧
      Reports 7 info s t ∧ t = { s with masks := t.masks, status := t.status, lcmd := t.lcmd }
    (outside → reports (.gather n n) 1 ∧ reports (.unpermute n n) 1) ∧
    (¬ outside → overlap → reports (.gather n n) 3) ∧
    (¬ outside → small → reports (.unpermute n n) 2) ∧
    (¬ outside → ¬ small → overlap → reports (.unpermute n n) 3)

/-- A digest that fails: SCATTER reports DigestFailure with no output (R126, R183 step 8). -/
def Obligations.DigestFailureReported : Prop :=
  ∀ (s : State) (n : Nat) (pl : Bytes),
    LegalCount n → ContainersReady n (76 + s.srcLen.toNat) s → Holds s.mem (srcRegion s) pl →
    digestOf s.cfg pl = none →
    ∃ t, exec (.scatter n n) s = .next t ∧ MasksFor n t ∧ Reports 4 0 s t ∧
      t = { s with masks := t.masks, status := t.status, lcmd := t.lcmd }

/-- GATHER of readable pieces, in the order of R183 steps 9 to 12: a reconstructed buffer shorter than 76
bytes gives MalformedHeader(1); a stored length beyond it MalformedHeader(2); a failing digest
DigestFailure; a digest other than the stored one IntegrityMismatch; a payload that does not fit in DST_SIZE
DescriptorError(2). -/
def Obligations.GatherVerificationErrors : Prop :=
  ∀ (s : State) (n : Nat) (pieces : List Bytes),
    LegalCount n → PiecesReady n s → HoldsPieces n s pieces →
    let plen := (s.psize[(0 : Fin 8)]).toNat
    let r := unpermute n plen pieces
    let len := fromLen8 s.cfg.lenOrder (slice r 4 12)
    let pl := slice r 76 (76 + len)
    let reports := fun (err : BitVec 4) (info : BitVec 8) => ∃ t, exec (.gather n n) s = .next t ∧
      MasksFor n t ∧ Reports err info s t ∧
      t = { s with masks := t.masks, status := t.status, lcmd := t.lcmd }
    (n * plen < 76 → reports 5 1) ∧
    (76 ≤ n * plen → n * plen - 76 < len → reports 5 2) ∧
    (76 ≤ n * plen → len ≤ n * plen - 76 → digestOf s.cfg pl = none → reports 4 0) ∧
    ∀ d, 76 ≤ n * plen → len ≤ n * plen - 76 → digestOf s.cfg pl = some d →
      (hexDigest s.cfg.hexCase d ≠ slice r 12 76 → reports 6 0) ∧
      (hexDigest s.cfg.hexCase d = slice r 12 76 → s.dstSize.toNat < len → reports 7 2)

/-- R182: a command that ends with ERR ≠ 0, be its word legal or not, leaves every state it had but STATUS
(with LCMD, R38) and MASKS; MASKS is written when the word is legal and got past the piece-count check, and
is kept otherwise. -/
def Obligations.FailureKeepsState : Prop :=
  ∀ (s t : State) (w : Word), nextTurn s = .engine → s.status.busy = true → s.lcmd = some w →
    step s = .next t → t.status.err ≠ 0 →
    t = { s with turns := s.turns.tail, masks := t.masks, status := t.status, lcmd := none } ∧
    (∀ i, decode w = .ok i → LegalCount (pieceCount i) → MasksFor (pieceCount i) t) ∧
    (∀ i, decode w = .ok i → ¬ LegalCount (pieceCount i) → t.masks = s.masks) ∧
    ∀ e, decode w = .error e → t.masks = s.masks

/-- Every result a command reports is a pair of ERR and INFO that R180 and R181 list, and one that the column
"raised by" of R180 gives that command: a legal word never reports IllegalCommand; GENMASK reports neither
OutputCountMismatch nor DescriptorError; only GATHER and UNPERMUTE report PieceLengthMismatch, only SCATTER
and GATHER DigestFailure, and only GATHER MalformedHeader or IntegrityMismatch (R183). -/
def Obligations.ResultsAreLegal : Prop :=
  ∀ (i : Instr) (s t : State), exec i s = .next t →
    (t.status.err, t.status.info) ∈ legalResults ∧ t.status.err ≠ 8 ∧
    (t.status.err = 2 ∨ t.status.err = 7 → ∀ n, i ≠ .genmask n) ∧
    (t.status.err = 3 → ∃ n k, i = .gather n k ∨ i = .unpermute n k) ∧
    (t.status.err = 4 → ∃ n k, i = .scatter n k ∨ i = .gather n k) ∧
    (t.status.err = 5 ∨ t.status.err = 6 → ∃ n k, i = .gather n k)

/-- Completion: BUSY = 0, DONE = 1, OVR kept, LCMD none, and STATUS as a word is
(info << 8) | (code << 4) | (STATUS & 4) | 2 (R38, R184). -/
def Obligations.CompletionReports : Prop :=
  ∀ (i : Instr) (s t : State), exec i s = .next t →
    t.status.busy = false ∧ t.status.done = true ∧ t.status.ovr = s.status.ovr ∧ t.lcmd = none ∧
    statusWord t.status = (t.status.info.setWidth 64 <<< 8) ||| (t.status.err.setWidth 64 <<< 4)
      ||| (statusWord s.status &&& 4) ||| 2

/-! ### Frames -/

/-- Which registers a command leaves alone, for all five: the parameters, SRC_ADDR, SRC_LEN, DST_ADDR,
PADDR and the host's fields always; MASKS unless N is legal; PSIZE[p] unless SCATTER or PERMUTE writes slot
p < N; DST_SIZE unless the command is GATHER or UNPERMUTE (R27 to R33, R42). -/
def Obligations.RegisterFrame : Prop :=
  ∀ (i : Instr) (s t : State), exec i s = .next t →
    KeptByCommand s t ∧
    (¬ LegalCount (pieceCount i) → t.masks = s.masks) ∧
    (∀ p : Fin 8, (∀ n k, i = .scatter n k ∨ i = .permute n k → n ≤ p.val) → t.psize[p] = s.psize[p]) ∧
    ((∀ n k, i ≠ .gather n k ∧ i ≠ .unpermute n k) → t.dstSize = s.dstSize)

/-- Which bytes of buffer memory a command leaves alone: all of them, for GENMASK; those outside the first
PLEN bytes of container p < N for SCATTER (PLEN = ceil((76 + SRC_LEN) / N)) and PERMUTE
(PLEN = ceil(SRC_LEN / N)); those outside the DST_SIZE bytes it reports at DST_ADDR for GATHER; those
outside the N * PLEN bytes at DST_ADDR for UNPERMUTE (R53, R58, 93 item 19). -/
def Obligations.MemoryFrame : Prop :=
  ∀ (s t : State) (n k : Nat),
    (exec (.genmask n) s = .next t → t.mem = s.mem ∧ t.stale = s.stale) ∧
    (exec (.scatter n k) s = .next t →
      KeptOutside (filledRegions n ((76 + s.srcLen.toNat + n - 1) / n) s) s t) ∧
    (exec (.permute n k) s = .next t →
      KeptOutside (filledRegions n ((s.srcLen.toNat + n - 1) / n) s) s t) ∧
    (exec (.gather n k) s = .next t →
      KeptOutside [{ base := s.dstAddr.toNat, len := t.dstSize.toNat }] s t) ∧
    (exec (.unpermute n k) s = .next t →
      KeptOutside [{ base := s.dstAddr.toNat, len := n * (s.psize[(0 : Fin 8)]).toNat }] s t)

/-- The outcome of a command does not depend on STATUS: with another STATUS it ends the same way, in the
same state but for the OVR it keeps (R40). -/
def Obligations.OutcomeIgnoresStatus : Prop :=
  ∀ (i : Instr) (s : State) (st : Status),
    (∀ t, exec i s = .next t →
      exec i { s with status := st } = .next { t with status := { t.status with ovr := st.ovr } }) ∧
    ∀ f, exec i s = .fault f → exec i { s with status := st } = .fault f

/-- A command that gets to its MemRead and finds an input byte never written since reset ends the run with
the unwritten-read fault at such a byte (R52, R206 c). That the run ends there, after the checks that stand
before the MemRead in the pseudocode of R126, R127, R156 and R157 and before MalformedHeader(1), is the
model's choice (DEDUCED, log 7): R52 gives the fault no place in the order of R183. -/
def Obligations.UnwrittenInputFaults : Prop :=
  ∀ (s : State) (n : Nat), LegalCount n →
    let faults := fun (i : Instr) => ∃ a, exec i s = .fault (.unwrittenRead a) ∧
      s.mem.read a = none ∧ ∃ r ∈ inputRegionsOf s i, r.Has a
    (∀ a, (srcRegion s).Has a → s.mem.read a = none →
      (ContainersReady n (76 + s.srcLen.toNat) s → faults (.scatter n n)) ∧
      (ContainersReady n s.srcLen.toNat s → faults (.permute n n))) ∧
    (∀ (p : Fin 8) (a : Nat), p.val < n → (pieceRegion s p).Has a → s.mem.read a = none →
      PiecesReady n s → faults (.gather n n) ∧
      (n * (s.psize[(0 : Fin 8)]).toNat ≤ s.dstSize.toNat → faults (.unpermute n n)))

/-- GATHER reports success only for a payload whose digest is the stored one: the bytes it writes are the
reconstructed buffer's after the header, cut to the stored length, and the rendering of their digest is the
64 stored bytes (R154 to R156). -/
def Obligations.GatherIsSound : Prop :=
  ∀ (s t : State) (n k : Nat), exec (.gather n k) s = .next t → t.status.err = 0 →
    k = n ∧ LegalCount n ∧ PiecesReady n s ∧
    ∃ pieces, HoldsPieces n s pieces ∧
      let r := unpermute n (s.psize[(0 : Fin 8)]).toNat pieces
      let len := fromLen8 s.cfg.lenOrder (slice r 4 12)
      let pl := slice r 76 (76 + len)
      76 + len ≤ r.length ∧ len ≤ s.dstSize.toNat ∧ t.dstSize.toNat = len ∧
      (∃ d, digestOf s.cfg pl = some d ∧ hexDigest s.cfg.hexCase d = slice r 12 76) ∧
      ∀ j < len, t.mem.read (s.dstAddr.toNat + j) = pl[j]?

/-! ### The register window (10_state.md) -/

/-- What RegRead returns at each of the 32 offsets, and that it has no side effect, busy or not: offset
8 * slot reads the register of R23, STATUS by its fields (R26), CMD and reserved offsets 0 (R25, R34), and
nothing but the host's replies, program and turn changes (R24, R60). -/
def Obligations.RegisterReads : Prop :=
  ∀ (s : State) (slot : Slot) (ps : List HostOp),
    nextTurn s = .host → s.prog = .regRead slot :: ps →
    ∃ v : Word, step s = .next { s with
        turns := s.turns.tail, prog := ps, replies := .word v :: s.replies } ∧
      (slot.val = 0 ∨ slot.val = 7 ∨ 24 ≤ slot.val → v = 0) ∧
      (slot.val = 1 → v.toNat = s.status.busy.toNat + 2 * s.status.done.toNat
        + 4 * s.status.ovr.toNat + 16 * s.status.err.toNat + 256 * s.status.info.toNat) ∧
      (slot.val = 2 → v = s.srcAddr) ∧ (slot.val = 3 → v = s.srcLen) ∧
      (slot.val = 4 → v = s.dstAddr) ∧ (slot.val = 5 → v = s.dstSize) ∧
      (slot.val = 6 → v = s.masks) ∧
      (∀ p : Fin 8, slot.val = 8 + p.val → v = s.paddr[p]) ∧
      ∀ p : Fin 8, slot.val = 16 + p.val → v = s.psize[p]

/-- R35: a RegWrite while idle, to any offset but CMD, stores the value in a descriptor register
(offsets 0x10 to 0x28 and 0x40 to 0xB8), and changes nothing at STATUS, MASKS and the reserved offsets; no
other register, no memory and no hidden state changes. -/
def Obligations.IdleRegisterWrite : Prop :=
  ∀ (s : State) (slot : Slot) (v : Word) (ps : List HostOp),
    nextTurn s = .host → s.prog = .regWrite slot v :: ps → s.status.busy = false → slot.val ≠ 0 →
    ∃ t, step s = .next t ∧
      (∀ q : Slot, readReg t (regAt q) =
        if q = slot ∧ ((2 ≤ slot.val ∧ slot.val ≤ 5) ∨ (8 ≤ slot.val ∧ slot.val < 24)) then v
        else readReg s (regAt q)) ∧
      t = { s with
        turns := s.turns.tail, prog := ps, srcAddr := t.srcAddr, srcLen := t.srcLen
        dstAddr := t.dstAddr, dstSize := t.dstSize, paddr := t.paddr, psize := t.psize }

/-- R36: a RegWrite to any offset while busy changes no register except OVR <- 1. -/
def Obligations.BusyRegisterWrite : Prop :=
  ∀ (s : State) (slot : Slot) (v : Word) (ps : List HostOp),
    nextTurn s = .host → s.prog = .regWrite slot v :: ps → s.status.busy = true →
    step s = .next { s with
      turns := s.turns.tail, prog := ps, status := { s.status with ovr := true } }

/-- R37: a RegWrite to CMD while idle latches any word, sets STATUS to 0x1, and changes no other register
and no memory. -/
def Obligations.Acceptance : Prop :=
  ∀ (s : State) (v : Word) (ps : List HostOp),
    nextTurn s = .host → s.prog = .regWrite 0 v :: ps → s.status.busy = false →
    ∃ t, step s = .next t ∧ statusWord t.status = 1 ∧ t.status.busy = true ∧ t.lcmd = some v ∧
      t = { s with turns := s.turns.tail, prog := ps, lcmd := t.lcmd, status := t.status }

/-- While a command is in flight no host transaction changes what it reads or will write: LCMD, the
descriptors, MASKS and the bytes written since reset stay, and BUSY stays 1 (R36, R58, R204). -/
def Obligations.InFlightStable : Prop :=
  ∀ s t : State, nextTurn s = .host → s.status.busy = true → step s = .next t →
    t.lcmd = s.lcmd ∧ t.status = { s.status with ovr := t.status.ovr } ∧ t.cfg = s.cfg ∧
    t.srcAddr = s.srcAddr ∧ t.srcLen = s.srcLen ∧ t.dstAddr = s.dstAddr ∧ t.dstSize = s.dstSize ∧
    t.paddr = s.paddr ∧ t.psize = s.psize ∧ t.masks = s.masks ∧ t.mem = s.mem

/-- POLL reads STATUS on each of the host's turns and stays in the program exactly while BUSY = 1
(R82). -/
def Obligations.PollLoops : Prop :=
  ∀ (s : State) (ps : List HostOp), nextTurn s = .host → s.prog = .poll :: ps →
    ∃ v, statusWord s.status = v ∧ step s = .next { s with
      turns := s.turns.tail
      prog := if s.status.busy then .poll :: ps else ps
      replies := .word v :: s.replies }

/-! ### Buffer memory and the host (20_memory.md, 70_reset_and_hazards.md) -/

/-- MemWr while idle, below MEM_BYTES: mem[a] <- b, and nothing else changes (R50, R57, R63). At or above
MEM_BYTES there is no such transaction: the model stops with its own fault `outsideMemory` (log 13). -/
def Obligations.HostMemoryWrite : Prop :=
  ∀ (s : State) (a : Nat) (b : Byte) (ps : List HostOp),
    nextTurn s = .host → s.prog = .memWr a b :: ps →
    (memBytes s.cfg ≤ a → step s = .fault (.outsideMemory a)) ∧
    (a < memBytes s.cfg → s.status.busy = false →
      ∃ t, step s = .next t ∧
        (∀ x, t.mem.read x = if x = a then some b else s.mem.read x) ∧
        (∀ x, settledByte t x = if x = a then some b else settledByte s x) ∧
        t = { s with turns := s.turns.tail, prog := ps, mem := t.mem, stale := t.stale })

/-- MemRd outside a busy command's output regions: a byte that is settled is returned with no side effect;
any other byte returns a value the model leaves free, which is settled from then on, while every other byte
and every register stays (R50, R60, 93 item 8; the settling is the model's, log 8). At or above MEM_BYTES the
model stops with its own fault (log 13). -/
def Obligations.HostMemoryRead : Prop :=
  ∀ (s : State) (a : Nat) (ps : List HostOp),
    nextTurn s = .host → s.prog = .memRd a :: ps →
    (memBytes s.cfg ≤ a → step s = .fault (.outsideMemory a)) ∧
    (a < memBytes s.cfg → ¬ (s.status.busy = true ∧ OutputByte s a) →
      (∀ b, settledByte s a = some b → step s = .next { s with
        turns := s.turns.tail, prog := ps, replies := .byte b :: s.replies }) ∧
      (settledByte s a = none → ∃ b t, step s = .next t ∧ settledByte t a = some b ∧
        (∀ x, x ≠ a → settledByte t x = settledByte s x) ∧
        t = { s with
          turns := s.turns.tail, prog := ps, replies := .byte b :: s.replies
          stale := t.stale, draws := t.draws }))

/-- Reading is idempotent: two host reads of one byte, one after the other, return the same value, whether
or not the byte was ever written (R60). -/
def Obligations.HostReadIdempotent : Prop :=
  ∀ (s t u : State) (a : Nat) (ps : List HostOp),
    nextTurn s = .host → s.prog = .memRd a :: .memRd a :: ps → step s = .next t →
    nextTurn t = .host → step t = .next u →
    ∃ b, u.replies = .byte b :: .byte b :: s.replies

/-- R204: while a command is in flight, a host write of any byte, and a host read of an output-region byte,
end the run with HazardFault; a host read outside the output regions does not. The output regions are
Region(PADDR[p], PSIZE[p]) for p < min(N, 8) for SCATTER and PERMUTE, Region(DST_ADDR, DST_SIZE) for GATHER
and UNPERMUTE, and none for GENMASK and illegal words. -/
def Obligations.HazardAccess : Prop :=
  ∀ (s : State) (w : Word) (a : Nat) (ps : List HostOp),
    nextTurn s = .host → s.status.busy = true → s.lcmd = some w → a < memBytes s.cfg →
    (∀ b, s.prog = .memWr a b :: ps → step s = .fault .hazardFault) ∧
    (s.prog = .memRd a :: ps →
      let piece := fun n => ∃ p : Fin 8, p.val < min n 8 ∧
        (s.paddr[p]).toNat ≤ a ∧ a < (s.paddr[p]).toNat + (s.psize[p]).toNat
      let dst := s.dstAddr.toNat ≤ a ∧ a < s.dstAddr.toNat + s.dstSize.toNat
      let output := match decode w with
        | .ok (.scatter n _) => piece n
        | .ok (.permute n _) => piece n
        | .ok (.gather _ _) => dst
        | .ok (.unpermute _ _) => dst
        | .ok (.genmask _) => False
        | .error _ => False
      (output → step s = .fault .hazardFault) ∧ (¬ output → ∃ t, step s = .next t))

/-! ### Reset (70_reset_and_hazards.md) -/

/-- The reset input, at any time: every register reads 0, LCMD is none, the parameters stay, and no byte
counts as written since reset (R43, R200). -/
def Obligations.ResetClearsRegisters : Prop :=
  ∀ s : State, nextTurn s = .reset →
    ∃ t, step s = .next t ∧ (∀ q : Slot, readReg t (regAt q) = 0) ∧ t.lcmd = none ∧
      t.cfg = s.cfg ∧ (∀ a, t.mem.read a = none) ∧ t.turns = s.turns.tail

/-- The reset input does not initialise buffer memory: a byte outside the output regions of an abandoned
command keeps its value for the host, and an output-region byte holds none, so that the next read of it is
free (R200, R201; that the engine no longer counts a kept byte as written is log 9). -/
def Obligations.ResetKeepsMemory : Prop :=
  ∀ s : State, nextTurn s = .reset →
    ∃ t, step s = .next t ∧
      (∀ a, ¬ OutputByte s a → settledByte t a = settledByte s a) ∧
      ∀ a, OutputByte s a → settledByte t a = none

/-- The state after reset: every register reads 0, LCMD is none and no byte of memory is listed, whatever
the parameters (R43). -/
def Obligations.ResetState : Prop :=
  ∀ c : Config,
    (∀ q : Slot, readReg (State.resetWith c) (regAt q) = 0) ∧
    (State.resetWith c).lcmd = none ∧ (State.resetWith c).mem = [] ∧ (State.resetWith c).cfg = c ∧
    State.reset = State.resetWith Config.standard

/-- The invariant holds after reset, whatever the parameters. -/
def Obligations.ResetInvariant : Prop :=
  (∀ c : Config, (State.resetWith c).Inv) ∧ State.reset.Inv

/-! ### The machine -/

/-- The engine's step runs the decoded instruction: when the engine is to move, BUSY = 1 and LCMD decodes to
i, step is exec of i at that state with the turn taken off (R38, R72); what step adds is nothing else. -/
def Obligations.StepRunsDecodedCommand : Prop :=
  ∀ (s : State) (w : Word) (i : Instr),
    nextTurn s = .engine → s.status.busy = true → s.lcmd = some w → decode w = .ok i →
    step s = exec i { s with turns := s.turns.tail }

/-- Every step keeps the invariant, from every state that has it. -/
def Obligations.StepKeepsInvariant : Prop :=
  ∀ s t : State, s.Inv → step s = .next t → t.Inv

/-- From a state with the invariant no step ends with `noLatchedCommand` or with a refusal. -/
def Obligations.LatchedCommandPresent : Prop :=
  ∀ s : State, s.Inv → step s ≠ .fault .noLatchedCommand ∧ ∀ r, step s ≠ .refused r

/-- A busy engine completes at its next step, whatever word is latched, when every byte of the command's
input regions has been written since reset: BUSY = 0, DONE = 1, LCMD none (R38, R184, R207). -/
def Obligations.BusyEngineCompletes : Prop :=
  ∀ s : State, s.Inv → nextTurn s = .engine → s.status.busy = true →
    (∀ w i, s.lcmd = some w → decode w = .ok i →
      ∀ r ∈ inputRegionsOf s i, ∀ a, r.Has a → (s.mem.read a).isSome) →
    ∃ t, step s = .next t ∧ t.status.busy = false ∧ t.status.done = true ∧ t.lcmd = none

/-- R158: if SCATTER of a payload succeeds into N containers, its N pieces are of one length, and GATHER with
the same N of those N pieces, with an output region that is in memory, overlaps no piece and holds the
payload, succeeds and writes exactly the payload, and DST_SIZE is its length. The state u is any state with
the parameters, PADDR and PSIZE that SCATTER left and with the pieces' bytes as it left them. -/
def Obligations.RoundTrip : Prop :=
  ∀ (s t u : State) (n k : Nat) (pl : Bytes),
    Holds s.mem (srcRegion s) pl → exec (.scatter n k) s = .next t → t.status.err = 0 →
    (∀ p : Fin 8, p.val < n → t.psize[p] = t.psize[(0 : Fin 8)]) ∧
    (u.cfg = t.cfg → u.paddr = t.paddr → u.psize = t.psize →
    (∀ (p : Fin 8) (a : Nat), p.val < n → (pieceRegion t p).Has a → u.mem.read a = t.mem.read a) →
    (dstRegion u).InMem u.cfg →
    (∀ p : Fin 8, p.val < n → ¬ (pieceRegion u p).Overlap (dstRegion u)) →
    pl.length ≤ u.dstSize.toNat →
    ∃ v, exec (.gather n n) u = .next v ∧ v.status.err = 0 ∧ v.dstSize.toNat = pl.length ∧
      ∀ i < pl.length, v.mem.read (u.dstAddr.toNat + i) = pl[i]?)

/-- A flipped bit b of byte i of piece q is a flipped bit b of the reconstructed buffer at
j = i * N + ((q - (b mod N)) mod N), and nothing else (R151, R159). -/
def Obligations.FlippedBitTravels : Prop :=
  ∀ (n plen : Nat) (pieces : List Bytes) (q i b : Nat),
    LegalCount n → pieces.length = n → (∀ x ∈ pieces, x.length = plen) → q < n → i < plen → b < 8 →
    unpermute n plen (pieces.modify q fun x => flipBit x i b)
      = flipBit (unpermute n plen pieces) (i * n + (q + n - b % n) % n) b

/-- What verification makes of one flipped bit at position j of the buffer of a scattered payload
(R159): (a) in the magic, and (e) in the zero tail, the payload comes back; (c) in the stored digest,
IntegrityMismatch; (d) in the payload, and (b) in the length when it still fits, IntegrityMismatch when the
digest of the payload then delimited is another one; (b) in the length when it no longer fits,
MalformedHeader(2). -/
def Obligations.TamperVerdict : Prop :=
  ∀ (c : Config) (pl : Bytes) (d : BitVec 256) (z j b : Nat),
    pl.length < 2 ^ 64 → digestOf c pl = some d → b < 8 → j < 76 + pl.length + z →
    let r := flipBit (frame c pl d ++ List.replicate z 0) j b
    let len := fromLen8 c.lenOrder (slice r 4 12)
    let other := ∃ d', digestOf c (slice r 76 (76 + len)) = some d' ∧ d' ≠ d
    (j < 4 → verify c r = .ok pl) ∧
    (4 ≤ j → j < 12 → pl.length + z < len → verify c r = .error (.raised .malformedHeader 2)) ∧
    (4 ≤ j → j < 12 → len ≤ pl.length + z → other →
      verify c r = .error (.raised .integrityMismatch 0)) ∧
    (12 ≤ j → j < 76 → verify c r = .error (.raised .integrityMismatch 0)) ∧
    (76 ≤ j → j < 76 + pl.length → len = pl.length ∧
      (other → verify c r = .error (.raised .integrityMismatch 0))) ∧
    (76 + pl.length ≤ j → verify c r = .ok pl)
end

