-- ==== Sys2Proof/Laws/Memory.lean ====
section
/-!
SUPPORT. What the operations on buffer memory do: each operation's reads after it, and that each keeps the
canonical form.
-/

namespace Sys2Proof.Machine

theorem Memory.read_nil (a : Nat) : Memory.read [] a = none := rfl

theorem Memory.read_cons (k : Nat) (b : Byte) (m : Memory) (a : Nat) :
    Memory.read ((k, b) :: m) a = if k = a then some b else Memory.read m a := rfl

/-- A read after a write gives the value written, and every other address reads as before. -/
theorem Memory.read_write (m : Memory) (a : Nat) (b : Byte) (x : Nat) :
    (m.write a b).read x = if x = a then some b else m.read x := by
  induction m with
  | nil => simp only [Memory.write, Memory.read, eq_comm]
  | cons c rest ih =>
    obtain ⟨k, d⟩ := c
    simp only [Memory.write]
    by_cases h1 : a < k
    · simp only [h1, if_true, Memory.read, eq_comm]
    · by_cases h2 : a = k
      · subst h2
        by_cases h3 : x = a
        · simp [Memory.read, h3]
        · simp [Memory.read, h3, Ne.symm h3]
      · simp only [h1, h2, if_false, Memory.read, ih]
        by_cases h3 : x = a
        · subst h3
          simp [Ne.symm h2]
        · simp [h3]

/-- Every address outside the written run reads as before, and address `a + i` reads byte i. -/
theorem Memory.read_writeBytes (bs : Bytes) (m : Memory) (a x : Nat) :
    (m.writeBytes a bs).read x = if a ≤ x ∧ x < a + bs.length then bs[x - a]? else m.read x := by
  induction bs generalizing m a with
  | nil =>
    simp [Memory.writeBytes]
  | cons b bs ih =>
    simp only [Memory.writeBytes, ih, Memory.read_write, List.length_cons]
    by_cases h1 : a + 1 ≤ x ∧ x < a + 1 + bs.length
    · have h2 : a ≤ x ∧ x < a + (bs.length + 1) := by omega
      have h3 : x - a = (x - (a + 1)) + 1 := by omega
      rw [if_pos h1, if_pos h2, h3, List.getElem?_cons_succ]
    · by_cases h4 : x = a
      · subst h4
        rw [if_neg h1, if_pos rfl, if_pos (by omega)]
        simp
      · rw [if_neg h1, if_neg h4, if_neg (by omega)]

/-- MemRead succeeds with `bs` exactly when every byte of the run is listed, and `bs` is those bytes. -/
theorem Memory.readBytes_ok_iff (m : Memory) (n a : Nat) (bs : Bytes) :
    m.readBytes a n = .ok bs ↔ bs.length = n ∧ ∀ i < n, m.read (a + i) = bs[i]? := by
  induction n generalizing a bs with
  | zero =>
    simp only [Memory.readBytes]
    constructor
    · intro h
      cases h
      simp
    · rintro ⟨h, -⟩
      rw [List.eq_nil_of_length_eq_zero h]
  | succ n ih =>
    simp only [Memory.readBytes]
    constructor
    · intro h
      cases hb : m.read a with
      | none => simp [hb] at h
      | some b =>
        cases hr : m.readBytes (a + 1) n with
        | error e => simp [hb, hr] at h
        | ok cs =>
          simp only [hb, hr, Except.ok.injEq] at h
          subst h
          obtain ⟨hl, hi⟩ := (ih (a + 1) cs).1 hr
          refine ⟨by simp [hl], fun i hin => ?_⟩
          cases i with
          | zero => simpa using hb
          | succ j =>
            have := hi j (by omega)
            rw [List.getElem?_cons_succ, ← this]
            congr 1
            omega
    · rintro ⟨hl, hi⟩
      cases bs with
      | nil => simp at hl
      | cons b bs =>
        have h0 := hi 0 (by omega)
        simp only [Nat.add_zero, List.getElem?_cons_zero] at h0
        have hr : m.readBytes (a + 1) n = .ok bs := by
          refine (ih (a + 1) bs).2 ⟨by simpa using hl, fun i hin => ?_⟩
          have := hi (i + 1) (by omega)
          rw [List.getElem?_cons_succ] at this
          rw [← this]
          congr 1
          omega
        simp [h0, hr]

/-- MemRead fails only at an address of the run that is not listed. -/
theorem Memory.readBytes_error (m : Memory) (n a e : Nat) (h : m.readBytes a n = .error e) :
    a ≤ e ∧ e < a + n ∧ m.read e = none := by
  induction n generalizing a with
  | zero => simp [Memory.readBytes] at h
  | succ n ih =>
    simp only [Memory.readBytes] at h
    cases hb : m.read a with
    | none =>
      simp only [hb, Except.error.injEq] at h
      subst h
      exact ⟨by omega, by omega, hb⟩
    | some b =>
      cases hr : m.readBytes (a + 1) n with
      | error e' =>
        simp only [hb, hr, Except.error.injEq] at h
        subst h
        obtain ⟨h1, h2, h3⟩ := ih (a + 1) hr
        exact ⟨by omega, by omega, h3⟩
      | ok cs => simp [hb, hr] at h

/-- MemRead depends on the bytes of the run only. -/
theorem Memory.readBytes_congr (m q : Memory) (n a : Nat)
    (h : ∀ i < n, m.read (a + i) = q.read (a + i)) : m.readBytes a n = q.readBytes a n := by
  induction n generalizing a with
  | zero => rfl
  | succ n ih =>
    have h0 := h 0 (by omega)
    simp only [Nat.add_zero] at h0
    simp only [Memory.readBytes, h0]
    rw [ih (a + 1) fun i hi => by
      have := h (i + 1) (by omega)
      rwa [show a + 1 + i = a + (i + 1) by omega]]

/-- A list cut down by its addresses reads as before at the addresses kept. -/
theorem Memory.read_filter (m : Memory) (keep : Nat → Bool) (x : Nat) :
    Memory.read (m.filter fun c => keep c.1) x = if keep x then m.read x else none := by
  induction m with
  | nil => simp [Memory.read]
  | cons c rest ih =>
    obtain ⟨k, b⟩ := c
    by_cases hx : k = x
    · subst hx
      cases hk : keep k
      · rw [List.filter_cons_of_neg (by simp [hk]), ih, hk]
        rfl
      · rw [List.filter_cons_of_pos (by simp [hk])]
        simp [Memory.read]
    · cases hk : keep k
      · rw [List.filter_cons_of_neg (by simp [hk]), ih]
        simp [Memory.read, hx]
      · rw [List.filter_cons_of_pos (by simp [hk]), Memory.read_cons, if_neg hx, ih]
        simp [Memory.read, hx]

theorem Memory.read_forget (m : Memory) (r : Region) (x : Nat) :
    (m.forget r).read x = if r.Has x then none else m.read x := by
  rw [Memory.forget, Memory.read_filter m (fun k => decide (¬ r.Has k)) x]
  by_cases h : r.Has x
  · rw [if_pos h, if_neg]
    simpa using h
  · rw [if_neg h, if_pos]
    exact decide_eq_true h

theorem Memory.read_foldl_forget (rs : List Region) (m : Memory) (x : Nat) :
    (rs.foldl Memory.forget m).read x = if ∃ r ∈ rs, r.Has x then none else m.read x := by
  induction rs generalizing m with
  | nil => simp
  | cons r rs ih =>
    simp only [List.foldl_cons, ih, Memory.read_forget, List.mem_cons, exists_eq_or_imp]
    by_cases h1 : ∃ q ∈ rs, q.Has x
    · simp [h1]
    · by_cases h2 : r.Has x <;> simp [h1, h2]

/-- An address read as listed stands in the list. -/
theorem Memory.mem_of_read {m : Memory} {a : Nat} {b : Byte} (h : m.read a = some b) : (a, b) ∈ m := by
  induction m with
  | nil => simp [Memory.read] at h
  | cons c rest ih =>
    obtain ⟨k, d⟩ := c
    simp only [Memory.read] at h
    by_cases hk : k = a
    · simp only [hk, if_true, Option.some.injEq] at h
      simp [hk, h]
    · simp only [hk, if_false] at h
      exact List.mem_cons_of_mem _ (ih h)

/-- Every listed address reads as some byte. -/
theorem Memory.read_isSome_of_mem {m : Memory} {c : Host.Cell} (h : c ∈ m) : (m.read c.1).isSome := by
  induction m with
  | nil => cases h
  | cons d rest ih =>
    obtain ⟨k, b⟩ := d
    simp only [Memory.read]
    by_cases hk : k = c.1
    · simp [hk]
    · simp only [hk, if_false]
      rcases List.mem_cons.1 h with rfl | h'
      · exact absurd rfl hk
      · exact ih h'

/-! ### The canonical form -/

theorem Memory.wf_nil : Memory.wf [] := List.Pairwise.nil

theorem Memory.mem_write {m : Memory} {a : Nat} {b : Byte} {c : Host.Cell} (h : c ∈ m.write a b) :
    c = (a, b) ∨ c ∈ m := by
  induction m with
  | nil => simpa [Memory.write] using h
  | cons d rest ih =>
    obtain ⟨k, e⟩ := d
    simp only [Memory.write] at h
    split at h
    · simpa using h
    · split at h
      · rcases List.mem_cons.1 h with h | h
        · exact .inl h
        · exact .inr (List.mem_cons_of_mem _ h)
      · rcases List.mem_cons.1 h with h | h
        · exact .inr (by simp [h])
        · rcases ih h with h | h
          · exact .inl h
          · exact .inr (List.mem_cons_of_mem _ h)

theorem Memory.wf_write {m : Memory} (h : m.wf) (a : Nat) (b : Byte) : (m.write a b).wf := by
  induction m with
  | nil => exact List.pairwise_singleton _ _
  | cons d rest ih =>
    obtain ⟨k, e⟩ := d
    obtain ⟨hk, hrest⟩ := List.pairwise_cons.1 h
    simp only [Memory.write]
    split
    · rename_i hlt
      refine List.pairwise_cons.2 ⟨fun c hc => ?_, h⟩
      rcases List.mem_cons.1 hc with rfl | hc
      · exact hlt
      · exact Nat.lt_trans hlt (hk c hc)
    · split
      · rename_i heq
        subst heq
        exact List.pairwise_cons.2 ⟨hk, hrest⟩
      · rename_i h1 h2
        refine List.pairwise_cons.2 ⟨fun c hc => ?_, ih hrest⟩
        rcases Memory.mem_write hc with rfl | hc
        · show k < a
          omega
        · exact hk c hc

theorem Memory.wf_writeBytes {m : Memory} (h : m.wf) (a : Nat) (bs : Bytes) : (m.writeBytes a bs).wf := by
  induction bs generalizing m a with
  | nil => exact h
  | cons b bs ih => exact ih (Memory.wf_write h a b) (a + 1)

theorem Memory.wf_forget {m : Memory} (h : m.wf) (r : Region) : (m.forget r).wf :=
  List.Pairwise.filter _ h

theorem Memory.wf_foldl_forget (rs : List Region) {m : Memory} (h : m.wf) :
    (rs.foldl Memory.forget m).wf := by
  induction rs generalizing m with
  | nil => exact h
  | cons r rs ih => exact ih (Memory.wf_forget h r)

theorem Memory.wf_over (new : Memory) {old : Memory} (h : old.wf) : (Memory.over new old).wf := by
  unfold Memory.over
  induction new with
  | nil => exact h
  | cons c cs ih => exact Memory.wf_write ih c.1 c.2

/-- `over` gives the new byte where there is one. -/
theorem Memory.read_over (new old : Memory) (x : Nat) :
    (Memory.over new old).read x = (new.read x).or (old.read x) := by
  unfold Memory.over
  induction new with
  | nil => simp [Memory.read]
  | cons c cs ih =>
    obtain ⟨k, b⟩ := c
    rw [List.foldr_cons, Memory.read_write, ih, Memory.read_cons]
    by_cases hx : x = k
    · simp [hx]
    · simp [hx, Ne.symm hx]

/-! ### Addresses that exist, and lists that share none -/

theorem Memory.within_write {c : Config} {m : Memory} (h : m.Within c) {a : Nat} (ha : a < memBytes c)
    (b : Byte) : (m.write a b).Within c := by
  intro cell hc
  rcases Memory.mem_write hc with rfl | hc
  · exact ha
  · exact h cell hc

theorem Memory.within_writeBytes {c : Config} {m : Memory} (h : m.Within c) {a : Nat} (bs : Bytes)
    (ha : bs.length = 0 ∨ a + bs.length ≤ memBytes c) : (m.writeBytes a bs).Within c := by
  induction bs generalizing m a with
  | nil => exact h
  | cons b bs ih =>
    simp only [List.length_cons] at ha
    refine ih (Memory.within_write h (by omega) b) (by omega)

theorem Memory.within_forget {c : Config} {m : Memory} (h : m.Within c) (r : Region) :
    (m.forget r).Within c := fun cell hc => h cell (List.mem_filter.1 hc).1

theorem Memory.within_foldl_forget {c : Config} (rs : List Region) {m : Memory} (h : m.Within c) :
    (rs.foldl Memory.forget m).Within c := by
  induction rs generalizing m with
  | nil => exact h
  | cons r rs ih => exact ih (Memory.within_forget h r)

theorem Memory.within_over {c : Config} {new old : Memory} (hn : new.Within c) (ho : old.Within c) :
    (Memory.over new old).Within c := by
  unfold Memory.over
  induction new with
  | nil => exact ho
  | cons d ds ih =>
    exact Memory.within_write (ih fun cell h => hn cell (List.mem_cons_of_mem _ h))
      (hn d List.mem_cons_self) d.2

/-- `Apart` says of every address that it is not listed in both. -/
theorem Memory.apart_iff (m q : Memory) : m.Apart q ↔ ∀ a, (m.read a).isSome → q.read a = none := by
  constructor
  · intro h a ha
    obtain ⟨b, hb⟩ := Option.isSome_iff_exists.1 ha
    exact h _ (Memory.mem_of_read hb)
  · intro h c hc
    exact h c.1 (Memory.read_isSome_of_mem hc)

end Sys2Proof.Machine
end

