-- ==== Sys2Proof/Laws/State.lean ====
section
/-!
SUPPORT. One lemma per field per update of the state, true by rfl, so that no proof unfolds an update.
-/

namespace Sys2Proof.Machine

/-! ### Acceptance (R37) -/

@[simp] theorem accept_cfg (v : Word) (s : State) : (accept v s).cfg = s.cfg := rfl
@[simp] theorem accept_status (v : Word) (s : State) : (accept v s).status = Status.accepted := rfl
@[simp] theorem accept_srcAddr (v : Word) (s : State) : (accept v s).srcAddr = s.srcAddr := rfl
@[simp] theorem accept_srcLen (v : Word) (s : State) : (accept v s).srcLen = s.srcLen := rfl
@[simp] theorem accept_dstAddr (v : Word) (s : State) : (accept v s).dstAddr = s.dstAddr := rfl
@[simp] theorem accept_dstSize (v : Word) (s : State) : (accept v s).dstSize = s.dstSize := rfl
@[simp] theorem accept_masks (v : Word) (s : State) : (accept v s).masks = s.masks := rfl
@[simp] theorem accept_paddr (v : Word) (s : State) : (accept v s).paddr = s.paddr := rfl
@[simp] theorem accept_psize (v : Word) (s : State) : (accept v s).psize = s.psize := rfl
@[simp] theorem accept_lcmd (v : Word) (s : State) : (accept v s).lcmd = some v := rfl
@[simp] theorem accept_mem (v : Word) (s : State) : (accept v s).mem = s.mem := rfl
@[simp] theorem accept_stale (v : Word) (s : State) : (accept v s).stale = s.stale := rfl
@[simp] theorem accept_draws (v : Word) (s : State) : (accept v s).draws = s.draws := rfl
@[simp] theorem accept_replies (v : Word) (s : State) : (accept v s).replies = s.replies := rfl
@[simp] theorem accept_prog (v : Word) (s : State) : (accept v s).prog = s.prog := rfl
@[simp] theorem accept_turns (v : Word) (s : State) : (accept v s).turns = s.turns := rfl

/-! ### Completion (R38) -/

@[simp] theorem finish_cfg (k : ResultKind) (info : BitVec 8) (s : State) :
    (finish k info s).cfg = s.cfg := rfl
@[simp] theorem finish_status (k : ResultKind) (info : BitVec 8) (s : State) :
    (finish k info s).status = s.status.completed k info := rfl
@[simp] theorem finish_srcAddr (k : ResultKind) (info : BitVec 8) (s : State) :
    (finish k info s).srcAddr = s.srcAddr := rfl
@[simp] theorem finish_srcLen (k : ResultKind) (info : BitVec 8) (s : State) :
    (finish k info s).srcLen = s.srcLen := rfl
@[simp] theorem finish_dstAddr (k : ResultKind) (info : BitVec 8) (s : State) :
    (finish k info s).dstAddr = s.dstAddr := rfl
@[simp] theorem finish_dstSize (k : ResultKind) (info : BitVec 8) (s : State) :
    (finish k info s).dstSize = s.dstSize := rfl
@[simp] theorem finish_masks (k : ResultKind) (info : BitVec 8) (s : State) :
    (finish k info s).masks = s.masks := rfl
@[simp] theorem finish_paddr (k : ResultKind) (info : BitVec 8) (s : State) :
    (finish k info s).paddr = s.paddr := rfl
@[simp] theorem finish_psize (k : ResultKind) (info : BitVec 8) (s : State) :
    (finish k info s).psize = s.psize := rfl
@[simp] theorem finish_lcmd (k : ResultKind) (info : BitVec 8) (s : State) :
    (finish k info s).lcmd = none := rfl
@[simp] theorem finish_mem (k : ResultKind) (info : BitVec 8) (s : State) :
    (finish k info s).mem = s.mem := rfl
@[simp] theorem finish_stale (k : ResultKind) (info : BitVec 8) (s : State) :
    (finish k info s).stale = s.stale := rfl
@[simp] theorem finish_draws (k : ResultKind) (info : BitVec 8) (s : State) :
    (finish k info s).draws = s.draws := rfl
@[simp] theorem finish_replies (k : ResultKind) (info : BitVec 8) (s : State) :
    (finish k info s).replies = s.replies := rfl
@[simp] theorem finish_prog (k : ResultKind) (info : BitVec 8) (s : State) :
    (finish k info s).prog = s.prog := rfl
@[simp] theorem finish_turns (k : ResultKind) (info : BitVec 8) (s : State) :
    (finish k info s).turns = s.turns := rfl

/-! ### The load of MASKS (R31) -/

@[simp] theorem loadMasks_cfg (n : Nat) (s : State) : (loadMasks n s).cfg = s.cfg := rfl
@[simp] theorem loadMasks_status (n : Nat) (s : State) : (loadMasks n s).status = s.status := rfl
@[simp] theorem loadMasks_srcAddr (n : Nat) (s : State) : (loadMasks n s).srcAddr = s.srcAddr := rfl
@[simp] theorem loadMasks_srcLen (n : Nat) (s : State) : (loadMasks n s).srcLen = s.srcLen := rfl
@[simp] theorem loadMasks_dstAddr (n : Nat) (s : State) : (loadMasks n s).dstAddr = s.dstAddr := rfl
@[simp] theorem loadMasks_dstSize (n : Nat) (s : State) : (loadMasks n s).dstSize = s.dstSize := rfl
@[simp] theorem loadMasks_masks (n : Nat) (s : State) : (loadMasks n s).masks = packMasks (genMasks n) := rfl
@[simp] theorem loadMasks_paddr (n : Nat) (s : State) : (loadMasks n s).paddr = s.paddr := rfl
@[simp] theorem loadMasks_psize (n : Nat) (s : State) : (loadMasks n s).psize = s.psize := rfl
@[simp] theorem loadMasks_lcmd (n : Nat) (s : State) : (loadMasks n s).lcmd = s.lcmd := rfl
@[simp] theorem loadMasks_mem (n : Nat) (s : State) : (loadMasks n s).mem = s.mem := rfl
@[simp] theorem loadMasks_stale (n : Nat) (s : State) : (loadMasks n s).stale = s.stale := rfl
@[simp] theorem loadMasks_draws (n : Nat) (s : State) : (loadMasks n s).draws = s.draws := rfl
@[simp] theorem loadMasks_replies (n : Nat) (s : State) : (loadMasks n s).replies = s.replies := rfl
@[simp] theorem loadMasks_prog (n : Nat) (s : State) : (loadMasks n s).prog = s.prog := rfl
@[simp] theorem loadMasks_turns (n : Nat) (s : State) : (loadMasks n s).turns = s.turns := rfl

/-! ### MemWrite (R53) -/

@[simp] theorem writeRegion_cfg (a : Nat) (bs : Bytes) (s : State) : (writeRegion a bs s).cfg = s.cfg := rfl
@[simp] theorem writeRegion_status (a : Nat) (bs : Bytes) (s : State) :
    (writeRegion a bs s).status = s.status := rfl
@[simp] theorem writeRegion_srcAddr (a : Nat) (bs : Bytes) (s : State) :
    (writeRegion a bs s).srcAddr = s.srcAddr := rfl
@[simp] theorem writeRegion_srcLen (a : Nat) (bs : Bytes) (s : State) :
    (writeRegion a bs s).srcLen = s.srcLen := rfl
@[simp] theorem writeRegion_dstAddr (a : Nat) (bs : Bytes) (s : State) :
    (writeRegion a bs s).dstAddr = s.dstAddr := rfl
@[simp] theorem writeRegion_dstSize (a : Nat) (bs : Bytes) (s : State) :
    (writeRegion a bs s).dstSize = s.dstSize := rfl
@[simp] theorem writeRegion_masks (a : Nat) (bs : Bytes) (s : State) :
    (writeRegion a bs s).masks = s.masks := rfl
@[simp] theorem writeRegion_paddr (a : Nat) (bs : Bytes) (s : State) :
    (writeRegion a bs s).paddr = s.paddr := rfl
@[simp] theorem writeRegion_psize (a : Nat) (bs : Bytes) (s : State) :
    (writeRegion a bs s).psize = s.psize := rfl
@[simp] theorem writeRegion_lcmd (a : Nat) (bs : Bytes) (s : State) :
    (writeRegion a bs s).lcmd = s.lcmd := rfl
@[simp] theorem writeRegion_mem (a : Nat) (bs : Bytes) (s : State) :
    (writeRegion a bs s).mem = s.mem.writeBytes a bs := rfl
@[simp] theorem writeRegion_stale (a : Nat) (bs : Bytes) (s : State) :
    (writeRegion a bs s).stale = s.stale.forget { base := a, len := bs.length } := rfl
@[simp] theorem writeRegion_draws (a : Nat) (bs : Bytes) (s : State) :
    (writeRegion a bs s).draws = s.draws := rfl
@[simp] theorem writeRegion_replies (a : Nat) (bs : Bytes) (s : State) :
    (writeRegion a bs s).replies = s.replies := rfl
@[simp] theorem writeRegion_prog (a : Nat) (bs : Bytes) (s : State) :
    (writeRegion a bs s).prog = s.prog := rfl
@[simp] theorem writeRegion_turns (a : Nat) (bs : Bytes) (s : State) :
    (writeRegion a bs s).turns = s.turns := rfl

/-! ### One piece written (R126) -/

@[simp] theorem storePiece_cfg (bs : Bytes) (s : State) (p : Fin 8) : (storePiece bs s p).cfg = s.cfg := rfl
@[simp] theorem storePiece_status (bs : Bytes) (s : State) (p : Fin 8) :
    (storePiece bs s p).status = s.status := rfl
@[simp] theorem storePiece_srcAddr (bs : Bytes) (s : State) (p : Fin 8) :
    (storePiece bs s p).srcAddr = s.srcAddr := rfl
@[simp] theorem storePiece_srcLen (bs : Bytes) (s : State) (p : Fin 8) :
    (storePiece bs s p).srcLen = s.srcLen := rfl
@[simp] theorem storePiece_dstAddr (bs : Bytes) (s : State) (p : Fin 8) :
    (storePiece bs s p).dstAddr = s.dstAddr := rfl
@[simp] theorem storePiece_dstSize (bs : Bytes) (s : State) (p : Fin 8) :
    (storePiece bs s p).dstSize = s.dstSize := rfl
@[simp] theorem storePiece_masks (bs : Bytes) (s : State) (p : Fin 8) :
    (storePiece bs s p).masks = s.masks := rfl
@[simp] theorem storePiece_paddr (bs : Bytes) (s : State) (p : Fin 8) :
    (storePiece bs s p).paddr = s.paddr := rfl
@[simp] theorem storePiece_psize (bs : Bytes) (s : State) (p : Fin 8) :
    (storePiece bs s p).psize = s.psize.set p (BitVec.ofNat 64 bs.length) := rfl
@[simp] theorem storePiece_lcmd (bs : Bytes) (s : State) (p : Fin 8) :
    (storePiece bs s p).lcmd = s.lcmd := rfl
@[simp] theorem storePiece_mem (bs : Bytes) (s : State) (p : Fin 8) :
    (storePiece bs s p).mem = s.mem.writeBytes (s.paddr[p]).toNat bs := rfl
@[simp] theorem storePiece_stale (bs : Bytes) (s : State) (p : Fin 8) :
    (storePiece bs s p).stale = s.stale.forget { base := (s.paddr[p]).toNat, len := bs.length } := rfl
@[simp] theorem storePiece_draws (bs : Bytes) (s : State) (p : Fin 8) :
    (storePiece bs s p).draws = s.draws := rfl
@[simp] theorem storePiece_replies (bs : Bytes) (s : State) (p : Fin 8) :
    (storePiece bs s p).replies = s.replies := rfl
@[simp] theorem storePiece_prog (bs : Bytes) (s : State) (p : Fin 8) :
    (storePiece bs s p).prog = s.prog := rfl
@[simp] theorem storePiece_turns (bs : Bytes) (s : State) (p : Fin 8) :
    (storePiece bs s p).turns = s.turns := rfl

/-! ### The output written (R156, R157) -/

@[simp] theorem storeOutput_cfg (bs : Bytes) (s : State) : (storeOutput bs s).cfg = s.cfg := rfl
@[simp] theorem storeOutput_status (bs : Bytes) (s : State) : (storeOutput bs s).status = s.status := rfl
@[simp] theorem storeOutput_srcAddr (bs : Bytes) (s : State) : (storeOutput bs s).srcAddr = s.srcAddr := rfl
@[simp] theorem storeOutput_srcLen (bs : Bytes) (s : State) : (storeOutput bs s).srcLen = s.srcLen := rfl
@[simp] theorem storeOutput_dstAddr (bs : Bytes) (s : State) : (storeOutput bs s).dstAddr = s.dstAddr := rfl
@[simp] theorem storeOutput_dstSize (bs : Bytes) (s : State) :
    (storeOutput bs s).dstSize = BitVec.ofNat 64 bs.length := rfl
@[simp] theorem storeOutput_masks (bs : Bytes) (s : State) : (storeOutput bs s).masks = s.masks := rfl
@[simp] theorem storeOutput_paddr (bs : Bytes) (s : State) : (storeOutput bs s).paddr = s.paddr := rfl
@[simp] theorem storeOutput_psize (bs : Bytes) (s : State) : (storeOutput bs s).psize = s.psize := rfl
@[simp] theorem storeOutput_lcmd (bs : Bytes) (s : State) : (storeOutput bs s).lcmd = s.lcmd := rfl
@[simp] theorem storeOutput_mem (bs : Bytes) (s : State) :
    (storeOutput bs s).mem = s.mem.writeBytes s.dstAddr.toNat bs := rfl
@[simp] theorem storeOutput_stale (bs : Bytes) (s : State) :
    (storeOutput bs s).stale = s.stale.forget { base := s.dstAddr.toNat, len := bs.length } := rfl
@[simp] theorem storeOutput_draws (bs : Bytes) (s : State) : (storeOutput bs s).draws = s.draws := rfl
@[simp] theorem storeOutput_replies (bs : Bytes) (s : State) : (storeOutput bs s).replies = s.replies := rfl
@[simp] theorem storeOutput_prog (bs : Bytes) (s : State) : (storeOutput bs s).prog = s.prog := rfl
@[simp] theorem storeOutput_turns (bs : Bytes) (s : State) : (storeOutput bs s).turns = s.turns := rfl

/-! ### A value given to the host (R24) -/

@[simp] theorem reply_cfg (r : Reply) (s : State) : (reply r s).cfg = s.cfg := rfl
@[simp] theorem reply_status (r : Reply) (s : State) : (reply r s).status = s.status := rfl
@[simp] theorem reply_srcAddr (r : Reply) (s : State) : (reply r s).srcAddr = s.srcAddr := rfl
@[simp] theorem reply_srcLen (r : Reply) (s : State) : (reply r s).srcLen = s.srcLen := rfl
@[simp] theorem reply_dstAddr (r : Reply) (s : State) : (reply r s).dstAddr = s.dstAddr := rfl
@[simp] theorem reply_dstSize (r : Reply) (s : State) : (reply r s).dstSize = s.dstSize := rfl
@[simp] theorem reply_masks (r : Reply) (s : State) : (reply r s).masks = s.masks := rfl
@[simp] theorem reply_paddr (r : Reply) (s : State) : (reply r s).paddr = s.paddr := rfl
@[simp] theorem reply_psize (r : Reply) (s : State) : (reply r s).psize = s.psize := rfl
@[simp] theorem reply_lcmd (r : Reply) (s : State) : (reply r s).lcmd = s.lcmd := rfl
@[simp] theorem reply_mem (r : Reply) (s : State) : (reply r s).mem = s.mem := rfl
@[simp] theorem reply_stale (r : Reply) (s : State) : (reply r s).stale = s.stale := rfl
@[simp] theorem reply_draws (r : Reply) (s : State) : (reply r s).draws = s.draws := rfl
@[simp] theorem reply_replies (r : Reply) (s : State) : (reply r s).replies = r :: s.replies := rfl
@[simp] theorem reply_prog (r : Reply) (s : State) : (reply r s).prog = s.prog := rfl
@[simp] theorem reply_turns (r : Reply) (s : State) : (reply r s).turns = s.turns := rfl

/-! ### A turn taken -/

@[simp] theorem tookTurn_cfg (s : State) : (tookTurn s).cfg = s.cfg := rfl
@[simp] theorem tookTurn_status (s : State) : (tookTurn s).status = s.status := rfl
@[simp] theorem tookTurn_srcAddr (s : State) : (tookTurn s).srcAddr = s.srcAddr := rfl
@[simp] theorem tookTurn_srcLen (s : State) : (tookTurn s).srcLen = s.srcLen := rfl
@[simp] theorem tookTurn_dstAddr (s : State) : (tookTurn s).dstAddr = s.dstAddr := rfl
@[simp] theorem tookTurn_dstSize (s : State) : (tookTurn s).dstSize = s.dstSize := rfl
@[simp] theorem tookTurn_masks (s : State) : (tookTurn s).masks = s.masks := rfl
@[simp] theorem tookTurn_paddr (s : State) : (tookTurn s).paddr = s.paddr := rfl
@[simp] theorem tookTurn_psize (s : State) : (tookTurn s).psize = s.psize := rfl
@[simp] theorem tookTurn_lcmd (s : State) : (tookTurn s).lcmd = s.lcmd := rfl
@[simp] theorem tookTurn_mem (s : State) : (tookTurn s).mem = s.mem := rfl
@[simp] theorem tookTurn_stale (s : State) : (tookTurn s).stale = s.stale := rfl
@[simp] theorem tookTurn_draws (s : State) : (tookTurn s).draws = s.draws := rfl
@[simp] theorem tookTurn_replies (s : State) : (tookTurn s).replies = s.replies := rfl
@[simp] theorem tookTurn_prog (s : State) : (tookTurn s).prog = s.prog := rfl
@[simp] theorem tookTurn_turns (s : State) : (tookTurn s).turns = s.turns.tail := rfl

/-! ### The engine's turn put first -/

@[simp] theorem engineNext_cfg (s : State) : (engineNext s).cfg = s.cfg := rfl
@[simp] theorem engineNext_status (s : State) : (engineNext s).status = s.status := rfl
@[simp] theorem engineNext_srcAddr (s : State) : (engineNext s).srcAddr = s.srcAddr := rfl
@[simp] theorem engineNext_srcLen (s : State) : (engineNext s).srcLen = s.srcLen := rfl
@[simp] theorem engineNext_dstAddr (s : State) : (engineNext s).dstAddr = s.dstAddr := rfl
@[simp] theorem engineNext_dstSize (s : State) : (engineNext s).dstSize = s.dstSize := rfl
@[simp] theorem engineNext_masks (s : State) : (engineNext s).masks = s.masks := rfl
@[simp] theorem engineNext_paddr (s : State) : (engineNext s).paddr = s.paddr := rfl
@[simp] theorem engineNext_psize (s : State) : (engineNext s).psize = s.psize := rfl
@[simp] theorem engineNext_lcmd (s : State) : (engineNext s).lcmd = s.lcmd := rfl
@[simp] theorem engineNext_mem (s : State) : (engineNext s).mem = s.mem := rfl
@[simp] theorem engineNext_stale (s : State) : (engineNext s).stale = s.stale := rfl
@[simp] theorem engineNext_draws (s : State) : (engineNext s).draws = s.draws := rfl
@[simp] theorem engineNext_replies (s : State) : (engineNext s).replies = s.replies := rfl
@[simp] theorem engineNext_prog (s : State) : (engineNext s).prog = s.prog := rfl
@[simp] theorem engineNext_turns (s : State) : (engineNext s).turns = .engine :: s.turns := rfl

/-! ### The reset input (R200, R201) -/

@[simp] theorem resetInput_cfg (s : State) : (resetInput s).cfg = s.cfg := rfl
@[simp] theorem resetInput_status (s : State) : (resetInput s).status = Status.reset := rfl
@[simp] theorem resetInput_srcAddr (s : State) : (resetInput s).srcAddr = 0 := rfl
@[simp] theorem resetInput_srcLen (s : State) : (resetInput s).srcLen = 0 := rfl
@[simp] theorem resetInput_dstAddr (s : State) : (resetInput s).dstAddr = 0 := rfl
@[simp] theorem resetInput_dstSize (s : State) : (resetInput s).dstSize = 0 := rfl
@[simp] theorem resetInput_masks (s : State) : (resetInput s).masks = 0 := rfl
@[simp] theorem resetInput_paddr (s : State) : (resetInput s).paddr = Vector.replicate 8 0 := rfl
@[simp] theorem resetInput_psize (s : State) : (resetInput s).psize = Vector.replicate 8 0 := rfl
@[simp] theorem resetInput_lcmd (s : State) : (resetInput s).lcmd = none := rfl
@[simp] theorem resetInput_mem (s : State) : (resetInput s).mem = [] := rfl
@[simp] theorem resetInput_stale (s : State) :
    (resetInput s).stale = (outputRegions s).foldl Memory.forget (settledBytes s) := rfl
@[simp] theorem resetInput_draws (s : State) : (resetInput s).draws = s.draws := rfl
@[simp] theorem resetInput_replies (s : State) : (resetInput s).replies = s.replies := rfl
@[simp] theorem resetInput_prog (s : State) : (resetInput s).prog = s.prog := rfl
@[simp] theorem resetInput_turns (s : State) : (resetInput s).turns = s.turns := rfl

/-! ### STATUS -/

@[simp] theorem completed_busy (st : Status) (k : ResultKind) (info : BitVec 8) :
    (st.completed k info).busy = false := rfl
@[simp] theorem completed_done (st : Status) (k : ResultKind) (info : BitVec 8) :
    (st.completed k info).done = true := rfl
@[simp] theorem completed_ovr (st : Status) (k : ResultKind) (info : BitVec 8) :
    (st.completed k info).ovr = st.ovr := rfl
@[simp] theorem completed_err (st : Status) (k : ResultKind) (info : BitVec 8) :
    (st.completed k info).err = k.code := rfl
@[simp] theorem completed_info (st : Status) (k : ResultKind) (info : BitVec 8) :
    (st.completed k info).info = info := rfl
@[simp] theorem overrun_busy (st : Status) : st.overrun.busy = st.busy := rfl
@[simp] theorem overrun_done (st : Status) : st.overrun.done = st.done := rfl
@[simp] theorem overrun_ovr (st : Status) : st.overrun.ovr = true := rfl
@[simp] theorem overrun_err (st : Status) : st.overrun.err = st.err := rfl
@[simp] theorem overrun_info (st : Status) : st.overrun.info = st.info := rfl

end Sys2Proof.Machine
end

