-- ==== Sys2Proof/Laws/Ops.lean ====
section
/-!
SUPPORT. What each shared operation of a command can do, said once: a check, the end of a command, the
load of MASKS, reading a region, and writing the pieces and the output.
-/

namespace Sys2Proof.Machine

/-! ### Checks and the end of a command -/

theorem require_bind {α : Type} (p : Prop) [Decidable p] (k : ResultKind) (info : BitVec 8)
    (f : Unit → Except Stop α) :
    (require p k info >>= f) = if p then f () else .error (.raised k info) := by
  unfold require
  split <;> rfl

theorem require_ok_iff (p : Prop) [Decidable p] (k : ResultKind) (info : BitVec 8) (u : Unit) :
    require p k info = .ok u ↔ p := by
  unfold require
  split <;> simp_all

/-- A command concludes with a next state in two ways: its outputs are there and the result is success, or
it raised a result and the state is kept but for `finish`. -/
theorem conclude_next_iff (s : State) (e : Except Stop State) (t : State) :
    conclude s e = .next t ↔
      (∃ u, e = .ok u ∧ t = finish .success 0 u) ∨
      ∃ k info, e = .error (.raised k info) ∧ t = finish k info s := by
  rcases e with (⟨k, info⟩ | f) | u
  · simp [conclude, eq_comm]
  · simp [conclude]
  · simp [conclude, eq_comm]

theorem conclude_fault_iff (s : State) (e : Except Stop State) (f : Fault) :
    conclude s e = .fault f ↔ e = .error (.fault f) := by
  rcases e with (⟨k, info⟩ | g) | u <;> simp [conclude]

theorem conclude_not_refused (s : State) (e : Except Stop State) (r : Refusal) :
    conclude s e ≠ .refused r := by
  rcases e with (⟨k, info⟩ | g) | u <;> simp [conclude]

theorem withMasks_legal {n : Nat} (h : LegalCount n) (s : State) (f : State → Except Stop State) :
    withMasks n s f = conclude (loadMasks n s) (f (loadMasks n s)) := if_pos h

theorem withMasks_illegal {n : Nat} (h : ¬ LegalCount n) (s : State) (f : State → Except Stop State) :
    withMasks n s f = .next (finish .invalidPieceCount 0 s) := if_neg h

/-- A command's next state: the piece count is refused; or MASKS is loaded and the command succeeds with
its outputs, or raises a result with the rest of the state kept. -/
theorem withMasks_next_iff (n : Nat) (s : State) (f : State → Except Stop State) (t : State) :
    withMasks n s f = .next t ↔
      (¬ LegalCount n ∧ t = finish .invalidPieceCount 0 s) ∨
      (LegalCount n ∧ ∃ u, f (loadMasks n s) = .ok u ∧ t = finish .success 0 u) ∨
      (LegalCount n ∧ ∃ k info, f (loadMasks n s) = .error (.raised k info) ∧
        t = finish k info (loadMasks n s)) := by
  by_cases h : LegalCount n
  · rw [withMasks_legal h, conclude_next_iff]
    constructor
    · rintro (h' | h')
      · exact .inr (.inl ⟨h, h'⟩)
      · exact .inr (.inr ⟨h, h'⟩)
    · rintro (⟨h', -⟩ | ⟨-, h'⟩ | ⟨-, h'⟩)
      · exact absurd h h'
      · exact .inl h'
      · exact .inr h'
  · rw [withMasks_illegal h]
    constructor
    · intro h'
      cases h'
      exact .inl ⟨h, rfl⟩
    · rintro (⟨-, rfl⟩ | ⟨h', -⟩ | ⟨h', -⟩)
      · rfl
      · exact absurd h' h
      · exact absurd h' h

theorem withMasks_fault_iff (n : Nat) (s : State) (f : State → Except Stop State) (e : Fault) :
    withMasks n s f = .fault e ↔ LegalCount n ∧ f (loadMasks n s) = .error (.fault e) := by
  by_cases h : LegalCount n
  · rw [withMasks_legal h, conclude_fault_iff]
    exact ⟨fun h' => ⟨h, h'⟩, fun h' => h'.2⟩
  · rw [withMasks_illegal h]
    constructor
    · intro h'
      cases h'
    · intro h'
      exact absurd h'.1 h

theorem withMasks_not_refused (n : Nat) (s : State) (f : State → Except Stop State) (r : Refusal) :
    withMasks n s f ≠ .refused r := by
  by_cases h : LegalCount n
  · rw [withMasks_legal h]
    exact conclude_not_refused _ _ _
  · rw [withMasks_illegal h]
    exact fun h' => by cases h'

/-! ### Slots -/

theorem mem_allSlots (p : Fin 8) : p ∈ allSlots := by
  revert p
  decide

theorem mem_slots (n : Nat) (p : Fin 8) : p ∈ slots n ↔ p.val < n := by
  simp [slots, mem_allSlots]

theorem slots_nodup (n : Nat) : (slots n).Nodup := List.Nodup.filter _ (by decide)

theorem slots_length {n : Nat} (h : n ≤ 8) : (slots n).length = n := by
  interval_cases n <;> decide

/-- The slots come in order: the i-th of them is slot i. -/
theorem slots_getElem? {n : Nat} (h : n ≤ 8) (i : Fin 8) (hi : i.val < n) : (slots n)[i.val]? = some i := by
  revert i
  interval_cases n <;> decide

/-! ### Reading -/

/-- MemRead answers bytes exactly when the region holds them. -/
theorem readRegion_ok_iff (s : State) (r : Region) (bs : Bytes) :
    readRegion s r = .ok bs ↔ Holds s.mem r bs := by
  unfold readRegion Holds
  rw [← Memory.readBytes_ok_iff]
  cases s.mem.readBytes r.base r.len <;> simp

/-- MemRead fails only with the unwritten-read fault, at a byte of the region that holds no value. -/
theorem readRegion_error (s : State) (r : Region) (e : Stop) (h : readRegion s r = .error e) :
    ∃ a, e = .fault (.unwrittenRead a) ∧ r.Has a ∧ s.mem.read a = none := by
  unfold readRegion at h
  cases hr : s.mem.readBytes r.base r.len with
  | ok bs => simp [hr] at h
  | error a =>
    simp only [hr, Except.error.injEq] at h
    obtain ⟨h1, h2, h3⟩ := Memory.readBytes_error _ _ _ _ hr
    exact ⟨a, h.symm, ⟨h1, h2⟩, h3⟩

theorem readRegion_congr (s t : State) (r : Region) (h : t.mem = s.mem) : readRegion t r = readRegion s r := by
  simp only [readRegion, h]

theorem readPieces_ok_iff (s : State) (plen : Nat) (ps : List (Fin 8)) (xs : List Bytes) :
    readPieces s plen ps = .ok xs ↔
      List.Forall₂ (fun (p : Fin 8) x => Holds s.mem { base := (s.paddr[p]).toNat, len := plen } x) ps xs := by
  induction ps generalizing xs with
  | nil => cases xs <;> simp [readPieces]
  | cons p ps ih =>
    simp only [readPieces]
    cases hx : readRegion s { base := (s.paddr[p]).toNat, len := plen } with
    | error e =>
      simp only [bind, Except.bind, reduceCtorEq, false_iff]
      intro h
      cases h with
      | cons h1 h2 =>
        rw [← readRegion_ok_iff, hx] at h1
        cases h1
    | ok x =>
      cases hxs : readPieces s plen ps with
      | error e =>
        simp only [bind, Except.bind, reduceCtorEq, false_iff]
        intro h
        cases h with
        | cons h1 h2 =>
          rw [← ih, hxs] at h2
          cases h2
      | ok ys =>
        have hx' := (readRegion_ok_iff _ _ _).1 hx
        have hys := (ih ys).1 hxs
        simp only [bind, Except.bind, Except.ok.injEq]
        constructor
        · rintro rfl
          exact .cons hx' hys
        · intro h
          cases h with
          | cons h1 h2 =>
            rw [← readRegion_ok_iff, hx] at h1
            rw [← ih, hxs] at h2
            cases h1
            cases h2
            rfl

theorem readPieces_error (s : State) (plen : Nat) (ps : List (Fin 8)) (e : Stop)
    (h : readPieces s plen ps = .error e) :
    ∃ p ∈ ps, ∃ a, e = .fault (.unwrittenRead a) ∧
      Region.Has { base := (s.paddr[p]).toNat, len := plen } a ∧ s.mem.read a = none := by
  induction ps with
  | nil => simp [readPieces] at h
  | cons p ps ih =>
    simp only [readPieces] at h
    cases hx : readRegion s { base := (s.paddr[p]).toNat, len := plen } with
    | error e' =>
      simp only [hx, bind, Except.bind, Except.error.injEq] at h
      subst h
      obtain ⟨a, h1, h2, h3⟩ := readRegion_error _ _ _ hx
      exact ⟨p, List.mem_cons_self, a, h1, h2, h3⟩
    | ok x =>
      cases hxs : readPieces s plen ps with
      | error e' =>
        simp only [hx, hxs, bind, Except.bind, Except.error.injEq] at h
        subst h
        obtain ⟨q, hq, hrest⟩ := ih hxs
        exact ⟨q, List.mem_cons_of_mem _ hq, hrest⟩
      | ok ys =>
        simp only [hx, hxs, bind, Except.bind, reduceCtorEq] at h

theorem digestOrRaise_ok_iff (c : Config) (bs : Bytes) (d : BitVec 256) :
    digestOrRaise c bs = .ok d ↔ digestOf c bs = some d := by
  unfold digestOrRaise
  cases digestOf c bs <;> simp

theorem digestOrRaise_error_iff (c : Config) (bs : Bytes) (e : Stop) :
    digestOrRaise c bs = .error e ↔ digestOf c bs = none ∧ e = .raised .digestFailure 0 := by
  unfold digestOrRaise
  cases digestOf c bs <;> simp [eq_comm]

/-! ### Writing -/

/-- The fields that writing pieces leaves alone. -/
theorem storePieces_kept (n : Nat) (xs : List Bytes) (s : State) :
    (storePieces n xs s).cfg = s.cfg ∧ (storePieces n xs s).status = s.status ∧
    (storePieces n xs s).srcAddr = s.srcAddr ∧ (storePieces n xs s).srcLen = s.srcLen ∧
    (storePieces n xs s).dstAddr = s.dstAddr ∧ (storePieces n xs s).dstSize = s.dstSize ∧
    (storePieces n xs s).masks = s.masks ∧ (storePieces n xs s).paddr = s.paddr ∧
    (storePieces n xs s).lcmd = s.lcmd ∧ (storePieces n xs s).draws = s.draws ∧
    (storePieces n xs s).replies = s.replies ∧ (storePieces n xs s).prog = s.prog ∧
    (storePieces n xs s).turns = s.turns := by
  unfold storePieces
  generalize slots n = ps
  induction ps generalizing s with
  | nil => simp
  | cons p ps ih => simpa using ih (storePiece (xs.getD p.val []) s p)

/-- PSIZE[p] takes the length of piece p for the slots written, and no other PSIZE changes. -/
theorem storePieces_psize (n : Nat) (xs : List Bytes) (s : State) (q : Fin 8) :
    (storePieces n xs s).psize[q] =
      if q.val < n then BitVec.ofNat 64 (xs.getD q.val []).length else s.psize[q] := by
  have key : ∀ (ps : List (Fin 8)) (u : State),
      (ps.foldl (fun t (p : Fin 8) => storePiece (xs.getD p.val []) t p) u).psize[q] =
        if q ∈ ps then BitVec.ofNat 64 (xs.getD q.val []).length else u.psize[q] := by
    intro ps
    induction ps with
    | nil => intro u; simp
    | cons p ps ih =>
      intro u
      rw [List.foldl_cons, ih]
      by_cases h1 : q ∈ ps
      · simp [h1]
      · by_cases h2 : q = p
        · subst h2
          simp [h1]
        · have h3 : p.val ≠ q.val := fun e => h2 (Fin.ext e.symm)
          simp [h1, h2, h3]
  have h := key (slots n) s
  simp only [mem_slots] at h
  exact h

/-- Where piece p of a list of pieces goes. -/
def pieceTarget (xs : List Bytes) (s : State) (p : Fin 8) : Region :=
  { base := (s.paddr[p]).toNat, len := (xs.getD p.val []).length }

/-- What writing one piece makes of a byte of memory. -/
theorem storePiece_read (bs : Bytes) (s : State) (p : Fin 8) (a : Nat) :
    (storePiece bs s p).mem.read a =
      (if Region.Has { base := (s.paddr[p]).toNat, len := bs.length } a
        then bs[a - (s.paddr[p]).toNat]? else s.mem.read a) ∧
    (storePiece bs s p).stale.read a =
      (if Region.Has { base := (s.paddr[p]).toNat, len := bs.length } a then none else s.stale.read a) := by
  constructor
  · rw [storePiece_mem, Memory.read_writeBytes]
  · rw [storePiece_stale, Memory.read_forget]

/-- A byte outside every piece's target is as it was. -/
theorem storePieces_read_outside (n : Nat) (xs : List Bytes) (s : State) (a : Nat)
    (h : ∀ p : Fin 8, p.val < n → ¬ (pieceTarget xs s p).Has a) :
    (storePieces n xs s).mem.read a = s.mem.read a ∧
    (storePieces n xs s).stale.read a = s.stale.read a := by
  have key : ∀ (ps : List (Fin 8)) (u : State), u.paddr = s.paddr →
      (∀ p ∈ ps, ¬ (pieceTarget xs s p).Has a) →
      (ps.foldl (fun t (p : Fin 8) => storePiece (xs.getD p.val []) t p) u).mem.read a = u.mem.read a ∧
      (ps.foldl (fun t (p : Fin 8) => storePiece (xs.getD p.val []) t p) u).stale.read a
        = u.stale.read a := by
    intro ps
    induction ps with
    | nil => intro u _ _; exact ⟨rfl, rfl⟩
    | cons p ps ih =>
      intro u hu hps
      have hp : ¬ Region.Has { base := (s.paddr[p]).toNat, len := (xs.getD p.val []).length } a :=
        hps p List.mem_cons_self
      have hr := storePiece_read (xs.getD p.val []) u p a
      rw [hu] at hr
      rw [if_neg hp, if_neg hp] at hr
      obtain ⟨h1, h2⟩ := ih (storePiece (xs.getD p.val []) u p) (by simpa using hu)
        fun q hq => hps q (List.mem_cons_of_mem _ hq)
      rw [List.foldl_cons]
      exact ⟨h1.trans hr.1, h2.trans hr.2⟩
  exact key (slots n) s rfl fun p hp => h p ((mem_slots n p).1 hp)

/-- A byte of one piece's target and of no other reads as the piece's byte, and is written since reset. -/
theorem storePieces_read_inside (n : Nat) (xs : List Bytes) (s : State) (a : Nat) (p : Fin 8)
    (hp : p.val < n) (ha : (pieceTarget xs s p).Has a)
    (h : ∀ q : Fin 8, q.val < n → q ≠ p → ¬ (pieceTarget xs s q).Has a) :
    (storePieces n xs s).mem.read a = (xs.getD p.val [])[a - (s.paddr[p]).toNat]? ∧
    (storePieces n xs s).stale.read a = none := by
  have key : ∀ (ps : List (Fin 8)) (u : State), u.paddr = s.paddr → ps.Nodup →
      (∀ q ∈ ps, q ≠ p → ¬ (pieceTarget xs s q).Has a) →
      ((ps.foldl (fun t (q : Fin 8) => storePiece (xs.getD q.val []) t q) u).mem.read a =
        if p ∈ ps then (xs.getD p.val [])[a - (s.paddr[p]).toNat]? else u.mem.read a) ∧
      ((ps.foldl (fun t (q : Fin 8) => storePiece (xs.getD q.val []) t q) u).stale.read a
        = if p ∈ ps then none else u.stale.read a) := by
    intro ps
    induction ps with
    | nil => intro u _ _ _; exact ⟨rfl, rfl⟩
    | cons q ps ih =>
      intro u hu hnd hps
      obtain ⟨hq, hnd'⟩ := List.nodup_cons.1 hnd
      have hr := storePiece_read (xs.getD q.val []) u q a
      rw [hu] at hr
      obtain ⟨h1, h2⟩ := ih (storePiece (xs.getD q.val []) u q) (by simpa using hu) hnd'
        fun r hr => hps r (List.mem_cons_of_mem _ hr)
      rw [List.foldl_cons, h1, h2, hr.1, hr.2]
      by_cases hqp : q = p
      · subst hqp
        have ha' : Region.Has { base := (s.paddr[q]).toNat, len := (xs.getD q.val []).length } a := ha
        simp only [hq, if_false, List.mem_cons_self, if_true]
        exact ⟨if_pos ha', if_pos ha'⟩
      · have ha' : ¬ Region.Has { base := (s.paddr[q]).toNat, len := (xs.getD q.val []).length } a :=
          hps q List.mem_cons_self hqp
        have hmem : p ∈ q :: ps ↔ p ∈ ps := by simp [Ne.symm hqp]
        rw [if_neg ha', if_neg ha']
        simp only [hmem, and_self]
  have hk := key (slots n) s rfl (slots_nodup n) fun q hq => h q ((mem_slots n q).1 hq)
  rw [if_pos ((mem_slots n p).2 hp), if_pos ((mem_slots n p).2 hp)] at hk
  exact hk

/-- Buffer memory is sound: canonical, within the addresses that exist, and settling no byte twice. -/
structure MemSound (s : State) : Prop where
  mem_wf : s.mem.wf
  stale_wf : s.stale.wf
  mem_within : s.mem.Within s.cfg
  stale_within : s.stale.Within s.cfg
  apart : s.stale.Apart s.mem

/-- MemWrite into memory keeps it sound. -/
theorem writeRegion_sound {s : State} (h : MemSound s) (a : Nat) (bs : Bytes)
    (hin : Region.InMem s.cfg { base := a, len := bs.length }) : MemSound (writeRegion a bs s) where
  mem_wf := Memory.wf_writeBytes h.mem_wf _ _
  stale_wf := Memory.wf_forget h.stale_wf _
  mem_within := Memory.within_writeBytes h.mem_within bs hin
  stale_within := Memory.within_forget h.stale_within _
  apart := by
    rw [Memory.apart_iff]
    intro x hx
    simp only [writeRegion_stale, writeRegion_mem, Memory.read_forget, Memory.read_writeBytes] at hx ⊢
    split at hx
    · cases hx
    · rename_i hn
      rw [if_neg hn]
      exact (Memory.apart_iff _ _).1 h.apart x hx

theorem storePiece_sound {s : State} (h : MemSound s) (bs : Bytes) (p : Fin 8)
    (hin : Region.InMem s.cfg { base := (s.paddr[p]).toNat, len := bs.length }) :
    MemSound (storePiece bs s p) :=
  let w := writeRegion_sound h (s.paddr[p]).toNat bs hin
  ⟨w.mem_wf, w.stale_wf, w.mem_within, w.stale_within, w.apart⟩

theorem storePieces_sound {s : State} (h : MemSound s) (n : Nat) (xs : List Bytes)
    (hin : ∀ p : Fin 8, p.val < n → (pieceTarget xs s p).InMem s.cfg) : MemSound (storePieces n xs s) := by
  have key : ∀ (ps : List (Fin 8)) (u : State), MemSound u → u.paddr = s.paddr → u.cfg = s.cfg →
      (∀ p ∈ ps, (pieceTarget xs s p).InMem s.cfg) →
      MemSound (ps.foldl (fun t (p : Fin 8) => storePiece (xs.getD p.val []) t p) u) := by
    intro ps
    induction ps with
    | nil => intro u hu _ _ _; exact hu
    | cons p ps ih =>
      intro u hu hpa hc hps
      refine ih _ (storePiece_sound hu _ p ?_) (by simpa using hpa) (by simpa using hc)
        fun q hq => hps q (List.mem_cons_of_mem _ hq)
      rw [hpa, hc]
      exact hps p List.mem_cons_self
  exact key (slots n) s h rfl rfl fun p hp => hin p ((mem_slots n p).1 hp)

theorem storeOutput_sound {s : State} (h : MemSound s) (bs : Bytes)
    (hin : Region.InMem s.cfg { base := s.dstAddr.toNat, len := bs.length }) : MemSound (storeOutput bs s) :=
  let w := writeRegion_sound h s.dstAddr.toNat bs hin
  ⟨w.mem_wf, w.stale_wf, w.mem_within, w.stale_within, w.apart⟩

end Sys2Proof.Machine
end

