-- ==== Sys2Proof/Laws/Commands.lean ====
section
/-!
SUPPORT. What each command can do after its piece-count check, said once: when it writes its outputs and
which state it then makes, and what it can stop with.
-/

namespace Sys2Proof.Machine

/-- `x >>= f` of a computation that stops or answers. -/
theorem except_bind_ok_iff {α β : Type} (x : Except Stop α) (f : α → Except Stop β) (b : β) :
    (x >>= f) = .ok b ↔ ∃ a, x = .ok a ∧ f a = .ok b := by
  cases x <;> simp [bind, Except.bind]

theorem except_bind_error_iff {α β : Type} (x : Except Stop α) (f : α → Except Stop β) (e : Stop) :
    (x >>= f) = .error e ↔ x = .error e ∨ ∃ a, x = .ok a ∧ f a = .error e := by
  cases x <;> simp [bind, Except.bind]

theorem require_error_iff (p : Prop) [Decidable p] (k : ResultKind) (info : BitVec 8) (e : Stop) :
    require p k info = .error e ↔ ¬ p ∧ e = .raised k info := by
  unfold require
  split <;> simp_all [eq_comm]

/-! ### SCATTER and PERMUTE -/

theorem checkContainers_ok_iff (n len : Nat) (s : State) (u : Unit) :
    checkContainers n (pieceLen n len) s = .ok u ↔ ContainersReady n len s := by
  simp only [checkContainers, except_bind_ok_iff, require_ok_iff, ContainersReady]
  constructor
  · rintro ⟨-, ⟨h1, h2⟩, -, h3, h4, h5⟩
    exact ⟨h1, h2, h3, h4, h5⟩
  · rintro ⟨h1, h2, h3, h4, h5⟩
    exact ⟨(), ⟨h1, h2⟩, (), h3, h4, h5⟩

theorem checkContainers_error {n plen : Nat} {s : State} {e : Stop}
    (h : checkContainers n plen s = .error e) :
    ∃ info, e = .raised .descriptorError info ∧ (info = 1 ∨ info = 2 ∨ info = 3) := by
  simp only [checkContainers, except_bind_error_iff, require_error_iff] at h
  rcases h with ⟨-, rfl⟩ | ⟨-, -, ⟨-, rfl⟩ | ⟨-, -, -, rfl⟩⟩
  · exact ⟨1, rfl, .inl rfl⟩
  · exact ⟨2, rfl, .inr (.inl rfl)⟩
  · exact ⟨3, rfl, .inr (.inr rfl)⟩

/-- SCATTER writes its pieces exactly when every check of R126 passes. -/
theorem scatterEffect_ok_iff (n k : Nat) (s t : State) :
    scatterEffect n k s = .ok t ↔
      k = n ∧ ContainersReady n (hdrSize + s.srcLen.toNat) s ∧
      ∃ pl d, Holds s.mem (srcRegion s) pl ∧ digestOf s.cfg pl = some d ∧
        t = storePieces n (permute n (frame s.cfg pl d)) s := by
  simp only [scatterEffect, except_bind_ok_iff, require_ok_iff, checkContainers_ok_iff,
    readRegion_ok_iff, digestOrRaise_ok_iff, Except.ok.injEq]
  constructor
  · rintro ⟨-, h1, -, h2, pl, h3, d, h4, h5⟩
    exact ⟨h1, h2, pl, d, h3, h4, h5.symm⟩
  · rintro ⟨h1, h2, pl, d, h3, h4, h5⟩
    exact ⟨(), h1, (), h2, pl, h3, d, h4, h5.symm⟩

/-- PERMUTE writes its pieces exactly when every check of R127 passes. -/
theorem permuteEffect_ok_iff (n k : Nat) (s t : State) :
    permuteEffect n k s = .ok t ↔
      k = n ∧ ContainersReady n s.srcLen.toNat s ∧
      ∃ f, Holds s.mem (srcRegion s) f ∧ t = storePieces n (permute n f) s := by
  simp only [permuteEffect, except_bind_ok_iff, require_ok_iff, checkContainers_ok_iff,
    readRegion_ok_iff, Except.ok.injEq]
  constructor
  · rintro ⟨-, h1, -, h2, f, h3, h4⟩
    exact ⟨h1, h2, f, h3, h4.symm⟩
  · rintro ⟨h1, h2, f, h3, h4⟩
    exact ⟨(), h1, (), h2, f, h3, h4.symm⟩

/-- The results a command can raise past its piece-count check: the rows of R183 that its column says
yes to. -/
def raisedResults : Instr → List (ResultKind × BitVec 8)
  | .genmask _ => []
  | .scatter _ _ => [(.outputCountMismatch, 0), (.descriptorError, 1), (.descriptorError, 2),
      (.descriptorError, 3), (.digestFailure, 0)]
  | .gather _ _ => [(.outputCountMismatch, 0), (.pieceLengthMismatch, 0), (.descriptorError, 1),
      (.descriptorError, 3), (.malformedHeader, 1), (.malformedHeader, 2), (.digestFailure, 0),
      (.integrityMismatch, 0), (.descriptorError, 2)]
  | .permute _ _ => [(.outputCountMismatch, 0), (.descriptorError, 1), (.descriptorError, 2),
      (.descriptorError, 3)]
  | .unpermute _ _ => [(.outputCountMismatch, 0), (.pieceLengthMismatch, 0), (.descriptorError, 1),
      (.descriptorError, 2), (.descriptorError, 3)]

/-- What a command can stop with: a result that R183 gives it, or the unwritten-read fault at a byte of one
of its input regions. -/
inductive StopOf (s : State) (inputs : List Region) (i : Instr) : Stop → Prop where
  | raised (k : ResultKind) (info : BitVec 8) (h : (k, info) ∈ raisedResults i) :
      StopOf s inputs i (.raised k info)
  | unwritten (r : Region) (a : Nat) (hr : r ∈ inputs) (ha : r.Has a) (hm : s.mem.read a = none) :
      StopOf s inputs i (.fault (.unwrittenRead a))

theorem readRegion_stopOf {s : State} {r : Region} {rs : List Region} {i : Instr} (hr : r ∈ rs) {e : Stop}
    (h : readRegion s r = .error e) : StopOf s rs i e := by
  obtain ⟨a, rfl, ha, hm⟩ := readRegion_error s r e h
  exact .unwritten r a hr ha hm

theorem scatterEffect_stopOf (n k : Nat) (s : State) (e : Stop) (h : scatterEffect n k s = .error e) :
    StopOf s [srcRegion s] (.scatter n k) e := by
  simp only [scatterEffect, except_bind_error_iff, require_error_iff, digestOrRaise_error_iff,
    reduceCtorEq, and_false, exists_false, or_false] at h
  rcases h with ⟨-, rfl⟩ | ⟨-, -, h | ⟨-, -, h | ⟨pl, -, -, rfl⟩⟩⟩
  · exact .raised _ _ (by simp [raisedResults])
  · obtain ⟨info, rfl, hi⟩ := checkContainers_error h
    rcases hi with rfl | rfl | rfl <;> exact .raised _ _ (by simp [raisedResults])
  · exact readRegion_stopOf List.mem_cons_self h
  · exact .raised _ _ (by simp [raisedResults])

theorem permuteEffect_stopOf (n k : Nat) (s : State) (e : Stop) (h : permuteEffect n k s = .error e) :
    StopOf s [srcRegion s] (.permute n k) e := by
  simp only [permuteEffect, except_bind_error_iff, require_error_iff,
    reduceCtorEq, and_false, exists_false, or_false] at h
  rcases h with ⟨-, rfl⟩ | ⟨-, -, h | ⟨-, -, h⟩⟩
  · exact .raised _ _ (by simp [raisedResults])
  · obtain ⟨info, rfl, hi⟩ := checkContainers_error h
    rcases hi with rfl | rfl | rfl <;> exact .raised _ _ (by simp [raisedResults])
  · exact readRegion_stopOf List.mem_cons_self h

/-! ### GATHER and UNPERMUTE -/

/-- Trim and verify answers a payload exactly when the stored length fits and the stored digest is the
payload's (R155). -/
theorem verify_ok_iff (c : Config) (r pl : Bytes) :
    verify c r = .ok pl ↔
      storedLen c r ≤ r.length - hdrSize ∧ pl = trimmed c r ∧
      ∃ d, digestOf c pl = some d ∧ hexDigest c.hexCase d = storedHex r := by
  simp only [verify, except_bind_ok_iff, require_ok_iff, digestOrRaise_ok_iff, Except.ok.injEq]
  constructor
  · rintro ⟨-, h1, d, h2, -, h3, rfl⟩
    exact ⟨h1, rfl, d, h2, h3⟩
  · rintro ⟨h1, rfl, d, h2, h3⟩
    exact ⟨(), h1, d, h2, (), h3, rfl⟩

theorem verify_error (c : Config) (r : Bytes) (e : Stop) (h : verify c r = .error e) :
    e = .raised .malformedHeader 2 ∨ e = .raised .digestFailure 0 ∨ e = .raised .integrityMismatch 0 := by
  simp only [verify, except_bind_error_iff, require_error_iff, digestOrRaise_error_iff,
    reduceCtorEq, and_false, exists_false, or_false] at h
  rcases h with ⟨-, rfl⟩ | ⟨-, -, ⟨-, rfl⟩ | ⟨-, -, -, rfl⟩⟩ <;> simp

/-- GATHER writes a payload exactly when every check of R156 passes. -/
theorem gatherEffect_ok_iff (n k : Nat) (s t : State) :
    gatherEffect n k s = .ok t ↔
      k = n ∧ PiecesReady n s ∧
      ∃ xs, readPieces s (s.psize[(0 : Fin 8)]).toNat (slots n) = .ok xs ∧
        hdrSize ≤ (unpermute n (s.psize[(0 : Fin 8)]).toNat xs).length ∧
        ∃ pl, verify s.cfg (unpermute n (s.psize[(0 : Fin 8)]).toNat xs) = .ok pl ∧
          storedLen s.cfg (unpermute n (s.psize[(0 : Fin 8)]).toNat xs) ≤ s.dstSize.toNat ∧
          t = storeOutput pl s := by
  simp only [gatherEffect, checkEqualLengths, checkInMem, checkApart, except_bind_ok_iff,
    require_ok_iff, Except.ok.injEq]
  constructor
  · rintro ⟨-, h1, -, h2, -, ⟨h3, h4⟩, -, h5, xs, h6, -, h7, pl, h8, -, h9, h10⟩
    exact ⟨h1, ⟨h2, h3, h4, h5⟩, xs, h6, h7, pl, h8, h9, h10.symm⟩
  · rintro ⟨h1, ⟨h2, h3, h4, h5⟩, xs, h6, h7, pl, h8, h9, h10⟩
    exact ⟨(), h1, (), h2, (), ⟨h3, h4⟩, (), h5, xs, h6, (), h7, pl, h8, (), h9, h10.symm⟩

/-- UNPERMUTE writes its buffer exactly when every check of R157 passes. -/
theorem unpermuteEffect_ok_iff (n k : Nat) (s t : State) :
    unpermuteEffect n k s = .ok t ↔
      k = n ∧ PiecesReady n s ∧ n * (s.psize[(0 : Fin 8)]).toNat ≤ s.dstSize.toNat ∧
      ∃ xs, readPieces s (s.psize[(0 : Fin 8)]).toNat (slots n) = .ok xs ∧
        t = storeOutput (unpermute n (s.psize[(0 : Fin 8)]).toNat xs) s := by
  simp only [unpermuteEffect, checkEqualLengths, checkInMem, checkApart, except_bind_ok_iff,
    require_ok_iff, Except.ok.injEq]
  constructor
  · rintro ⟨-, h1, -, h2, -, ⟨h3, h4⟩, -, h5, -, h6, xs, h7, h8⟩
    exact ⟨h1, ⟨h2, h3, h4, h6⟩, h5, xs, h7, h8.symm⟩
  · rintro ⟨h1, ⟨h2, h3, h4, h6⟩, h5, xs, h7, h8⟩
    exact ⟨(), h1, (), h2, (), ⟨h3, h4⟩, (), h5, (), h6, xs, h7, h8.symm⟩

/-- With equal lengths, a piece as GATHER reads it is the piece's own region. -/
theorem pieceRegion_eq {n : Nat} {s : State}
    (h : ∀ p : Fin 8, p.val < n → s.psize[p] = s.psize[(0 : Fin 8)]) (p : Fin 8) (hp : p.val < n) :
    pieceRegion s p = { base := (s.paddr[p]).toNat, len := (s.psize[(0 : Fin 8)]).toNat } := by
  rw [pieceRegion, h p hp]

theorem readPieces_stopOf {n : Nat} {s : State} {i : Instr}
    (heq : ∀ p : Fin 8, p.val < n → s.psize[p] = s.psize[(0 : Fin 8)]) {e : Stop}
    (h : readPieces s (s.psize[(0 : Fin 8)]).toNat (slots n) = .error e) :
    StopOf s ((slots n).map (pieceRegion s)) i e := by
  obtain ⟨p, hp, a, rfl, ha, hm⟩ := readPieces_error _ _ _ _ h
  refine .unwritten (pieceRegion s p) a (List.mem_map_of_mem hp) ?_ hm
  rw [pieceRegion_eq heq p ((mem_slots n p).1 hp)]
  exact ha

theorem gatherEffect_stopOf (n k : Nat) (s : State) (e : Stop) (h : gatherEffect n k s = .error e) :
    StopOf s ((slots n).map (pieceRegion s)) (.gather n k) e := by
  simp only [gatherEffect, checkEqualLengths, checkInMem, checkApart, except_bind_error_iff,
    require_error_iff, require_ok_iff, reduceCtorEq, and_false, exists_false, or_false] at h
  rcases h with ⟨-, rfl⟩ | ⟨-, -, ⟨-, rfl⟩ | ⟨-, heq, ⟨-, rfl⟩ | ⟨-, -, ⟨-, rfl⟩ | ⟨-, -, h⟩⟩⟩⟩
  · exact .raised _ _ (by simp [raisedResults])
  · exact .raised _ _ (by simp [raisedResults])
  · exact .raised _ _ (by simp [raisedResults])
  · exact .raised _ _ (by simp [raisedResults])
  · rcases h with h | ⟨xs, -, ⟨-, rfl⟩ | ⟨-, -, h | ⟨pl, -, -, rfl⟩⟩⟩
    · exact readPieces_stopOf heq h
    · exact .raised _ _ (by simp [raisedResults])
    · rcases verify_error _ _ _ h with rfl | rfl | rfl <;> exact .raised _ _ (by simp [raisedResults])
    · exact .raised _ _ (by simp [raisedResults])

theorem unpermuteEffect_stopOf (n k : Nat) (s : State) (e : Stop) (h : unpermuteEffect n k s = .error e) :
    StopOf s ((slots n).map (pieceRegion s)) (.unpermute n k) e := by
  simp only [unpermuteEffect, checkEqualLengths, checkInMem, checkApart, except_bind_error_iff,
    require_error_iff, require_ok_iff, reduceCtorEq, and_false, exists_false, or_false] at h
  rcases h with ⟨-, rfl⟩ |
    ⟨-, -, ⟨-, rfl⟩ | ⟨-, heq, ⟨-, rfl⟩ | ⟨-, -, ⟨-, rfl⟩ | ⟨-, -, ⟨-, rfl⟩ | ⟨-, -, h⟩⟩⟩⟩⟩
  · exact .raised _ _ (by simp [raisedResults])
  · exact .raised _ _ (by simp [raisedResults])
  · exact .raised _ _ (by simp [raisedResults])
  · exact .raised _ _ (by simp [raisedResults])
  · exact .raised _ _ (by simp [raisedResults])
  · exact readPieces_stopOf heq h

end Sys2Proof.Machine
end

