-- ==== Sys2Proof/Laws/Digest.lean ====
section
/-!
SUPPORT. The root that the constants of SHA-256 are taken from is the integer root.
-/

namespace Sys2Proof.Machine

/-- `rootFrom` finds the integer root, when it starts below it and the root is within its reach. -/
theorem rootFrom_spec (e x k r : Nat) (hlo : r ^ e ≤ x) (hhi : x < (r + 2 ^ k) ^ e) :
    rootFrom e x k r ^ e ≤ x ∧ x < (rootFrom e x k r + 1) ^ e := by
  induction k generalizing r with
  | zero => exact ⟨hlo, hhi⟩
  | succ k ih =>
    simp only [rootFrom]
    split
    · rename_i hle
      refine ih _ (Nat.le_of_ble_eq_true hle) ?_
      rwa [show r + 2 ^ k + 2 ^ k = r + 2 ^ (k + 1) by rw [Nat.pow_succ]; omega]
    · rename_i hle
      refine ih _ hlo (Nat.lt_of_not_le fun h => ?_)
      rw [Nat.ble_eq_true_of_le h] at hle
      cases hle

end Sys2Proof.Machine
end

