-- ==== Sys2Proof/Laws/PerInstr.lean ====
section
/-!
SUPPORT. Facts about every command as syntax, one lemma per constructor of `Instr`.
-/

/-- The word of a well-formed command selects the command's row of the opcode table (R72). -/
def Sys2Proof.Laws.SelectsRow.Statement (i : Sys2Proof.Instr) : Prop :=
  i.WellFormed → Sys2Proof.encode i &&& i.rowMask = i.rowMatch

namespace Sys2Proof.Laws.SelectsRow

theorem genmask (n : Nat) : Statement (.genmask n) := by
  intro h
  have h : n < 16 := h
  interval_cases n <;> decide

/-- The four rows whose mask leaves N and K free. -/
theorem commandWord_row {op n k : Nat} (hop : op < 6) (hn : n < 16) (hk : k < 16) :
    commandWord op n k &&& 0xFFFFFFFFFFFFF00F = BitVec.ofNat 64 op := by
  have key : ∀ a : Fin 6, ∀ b c : Fin 16,
      commandWord a.val b.val c.val &&& 0xFFFFFFFFFFFFF00F = BitVec.ofNat 64 a.val := by decide +kernel
  exact key ⟨op, hop⟩ ⟨n, hn⟩ ⟨k, hk⟩

theorem scatter (n k : Nat) : Statement (.scatter n k) :=
  fun h => commandWord_row (by decide) h.1 h.2

theorem gather (n k : Nat) : Statement (.gather n k) :=
  fun h => commandWord_row (by decide) h.1 h.2

theorem permute (n k : Nat) : Statement (.permute n k) :=
  fun h => commandWord_row (by decide) h.1 h.2

theorem unpermute (n k : Nat) : Statement (.unpermute n k) :=
  fun h => commandWord_row (by decide) h.1 h.2

end Sys2Proof.Laws.SelectsRow
end

