-- ==== Sys2Proof/Laws/Permutation.lean ====
section
/-!
SUPPORT. Lengths and indexing of byte strings, pieces and reconstructed buffers, and one bit of an OR over
several bytes.
-/

namespace Sys2Proof.Machine

theorem byteAt_of_lt {bs : Bytes} {i : Nat} (h : i < bs.length) : byteAt bs i = bs[i] := by
  simp [byteAt, h]

theorem byteAt_of_le {bs : Bytes} {i : Nat} (h : bs.length ≤ i) : byteAt bs i = 0 := by
  simp [byteAt, h]

theorem getElem?_eq_some_byteAt {bs : Bytes} {i : Nat} (h : i < bs.length) : bs[i]? = some (byteAt bs i) := by
  simp [byteAt, h]

theorem byteAt_append (xs ys : Bytes) (i : Nat) :
    byteAt (xs ++ ys) i = if i < xs.length then byteAt xs i else byteAt ys (i - xs.length) := by
  unfold byteAt
  split
  · rename_i h
    rw [List.getElem?_append_left h]
  · rename_i h
    rw [List.getElem?_append_right (by omega)]

theorem byteAt_replicate_zero (n i : Nat) : byteAt (List.replicate n 0) i = 0 := by
  unfold byteAt
  rw [List.getElem?_replicate]
  split <;> rfl

/-- Two byte strings of one length with the same bytes are equal. -/
theorem bytes_ext {xs ys : Bytes} (hl : xs.length = ys.length)
    (h : ∀ i < xs.length, byteAt xs i = byteAt ys i) : xs = ys := by
  refine List.ext_getElem hl fun i h1 h2 => ?_
  have := h i h1
  rwa [byteAt_of_lt h1, byteAt_of_lt h2] at this

/-- One bit of an OR over several bytes: some byte has it. -/
theorem orOver_getLsbD (n : Nat) (e : Nat → Byte) (b : Nat) :
    (orOver n e).getLsbD b = true ↔ ∃ m < n, (e m).getLsbD b = true := by
  unfold orOver
  induction n with
  | zero => simp
  | succ n ih =>
    rw [List.range_succ, List.foldl_append, List.foldl_cons, List.foldl_nil, BitVec.getLsbD_or,
      Bool.or_eq_true, ih]
    constructor
    · rintro (⟨m, hm, h⟩ | h)
      · exact ⟨m, by omega, h⟩
      · exact ⟨n, by omega, h⟩
    · rintro ⟨m, hm, h⟩
      by_cases hmn : m = n
      · exact .inr (hmn ▸ h)
      · exact .inl ⟨m, by omega, h⟩

theorem permutePiece_length (n : Nat) (f : Bytes) (p : Nat) :
    (permutePiece n f p).length = pieceLen n f.length := by
  simp [permutePiece]

theorem permute_length (n : Nat) (f : Bytes) : (permute n f).length = n := by simp [permute]

theorem permute_getD {n : Nat} {p : Nat} (hp : p < n) (f : Bytes) :
    (permute n f).getD p [] = permutePiece n f p := by
  simp [permute, hp]

theorem byteAt_permutePiece {n : Nat} {f : Bytes} {p g : Nat} (hg : g < pieceLen n f.length) :
    byteAt (permutePiece n f p) g = permGroup n (genMasks n) (groupRow n f g) p := by
  rw [byteAt_of_lt (by rwa [permutePiece_length])]
  simp [permutePiece]

theorem unpermute_length (n plen : Nat) (xs : List Bytes) : (unpermute n plen xs).length = n * plen := by
  simp [unpermute, List.length_flatMap, Nat.mul_comm]

/-- `ceil(a / b)` bounds a from above, and nothing smaller does. -/
theorem ceilDiv_le_iff {a b c : Nat} (hb : 0 < b) : ceilDiv a b ≤ c ↔ a ≤ b * c := by
  unfold ceilDiv
  rw [← Nat.lt_succ_iff, Nat.div_lt_iff_lt_mul hb, Nat.succ_mul, Nat.mul_comm c b]
  omega

theorem le_mul_pieceLen {n : Nat} (hn : 0 < n) (len : Nat) : len ≤ n * pieceLen n len :=
  (ceilDiv_le_iff hn).1 (Nat.le_refl _)

theorem mul_pieceLen_lt {n : Nat} (hn : 0 < n) (len : Nat) : n * pieceLen n len < len + n := by
  by_contra hc
  have hpos : 0 < pieceLen n len := by
    rcases Nat.eq_zero_or_pos (pieceLen n len) with h | h
    · rw [h] at hc
      omega
    · exact h
  have h1 : ceilDiv len n ≤ pieceLen n len - 1 := by
    rw [ceilDiv_le_iff hn, Nat.mul_sub, Nat.mul_one]
    omega
  have h2 : ceilDiv len n = pieceLen n len := rfl
  omega

/-- Byte `i * n + r` of a reconstructed buffer is row r of column i. -/
theorem byteAt_unpermute {n plen : Nat} (xs : List Bytes) {i r : Nat} (hr : r < n) (hi : i < plen) :
    byteAt (unpermute n plen xs) (i * n + r) = unpermCol n (genMasks n) xs i r := by
  have key : ∀ (l : List Nat) (f : Nat → Nat → Byte) (j : Nat) (hj : j < l.length),
      byteAt (l.flatMap fun i => (List.range n).map (f i)) (j * n + r) = f l[j] r := by
    intro l f
    induction l with
    | nil => intro j hj; simp at hj
    | cons a l ih =>
      intro j hj
      rw [List.flatMap_cons, byteAt_append]
      cases j with
      | zero =>
        simp only [Nat.zero_mul, Nat.zero_add, List.length_map, List.length_range, hr, if_true]
        rw [byteAt_of_lt (by simpa using hr)]
        simp
      | succ j =>
        have h1 : ¬ ((j + 1) * n + r < ((List.range n).map (f a)).length) := by
          simp only [List.length_map, List.length_range, Nat.succ_mul]
          omega
        have h2 : (j + 1) * n + r - ((List.range n).map (f a)).length = j * n + r := by
          simp only [List.length_map, List.length_range, Nat.succ_mul]
          omega
        rw [if_neg h1, h2, ih j (by simpa using hj)]
        simp
  have h := key (List.range plen) (unpermCol n (genMasks n) xs) i (by simpa using hi)
  simpa [unpermute] using h

/-! ### Header -/

theorem le64_length (v : Word) : (le64 v).length = 8 := by simp [le64]

theorem len8_length (o : LenOrder) (v : Word) : (len8 o v).length = 8 := by
  cases o <;> simp [len8, be64, le64]

theorem hexDigest_length (c : HexCase) (d : BitVec 256) : (hexDigest c d).length = 64 := by
  simp [hexDigest, List.length_flatMap]

theorem buildHeader_length (c : Config) (pl : Bytes) (d : BitVec 256) :
    (buildHeader c pl d).length = hdrSize := by
  simp [buildHeader, len8_length, hexDigest_length, hdrSize]

theorem frame_length (c : Config) (pl : Bytes) (d : BitVec 256) :
    (frame c pl d).length = hdrSize + pl.length := by
  simp [frame, buildHeader_length]

end Sys2Proof.Machine
end

