-- ==== Sys2Proof/Laws/Step.lean ====
section
/-!
SUPPORT. What a completion, the host's turn and a step can do, said once.
-/

namespace Sys2Proof.Machine

/-! ### Completion -/

/-- The state a successful command makes before `finish`: nothing more; the N pieces of some byte string
written to containers that passed every check; or some bytes written to an output region they fit. -/
inductive Outputs (s : State) : Instr → State → Prop where
  | none (n : Nat) : Outputs s (.genmask n) s
  | scatter (n : Nat) (pl : Bytes) (d : BitVec 256)
      (hr : ContainersReady n (hdrSize + s.srcLen.toNat) s) (hpl : Holds s.mem (srcRegion s) pl)
      (hd : digestOf s.cfg pl = some d) :
      Outputs s (.scatter n n) (storePieces n (permute n (frame s.cfg pl d)) s)
  | permute (n : Nat) (f : Bytes) (hr : ContainersReady n s.srcLen.toNat s)
      (hf : Holds s.mem (srcRegion s) f) : Outputs s (.permute n n) (storePieces n (permute n f) s)
  | gather (n : Nat) (xs : List Bytes) (pl : Bytes) (hr : PiecesReady n s)
      (hxs : readPieces s (s.psize[(0 : Fin 8)]).toNat (slots n) = .ok xs)
      (hlen : hdrSize ≤ (unpermute n (s.psize[(0 : Fin 8)]).toNat xs).length)
      (hv : verify s.cfg (unpermute n (s.psize[(0 : Fin 8)]).toNat xs) = .ok pl)
      (hfit : storedLen s.cfg (unpermute n (s.psize[(0 : Fin 8)]).toNat xs) ≤ s.dstSize.toNat) :
      Outputs s (.gather n n) (storeOutput pl s)
  | unpermute (n : Nat) (xs : List Bytes) (hr : PiecesReady n s)
      (hfit : n * (s.psize[(0 : Fin 8)]).toNat ≤ s.dstSize.toNat)
      (hxs : readPieces s (s.psize[(0 : Fin 8)]).toNat (slots n) = .ok xs) :
      Outputs s (.unpermute n n) (storeOutput (unpermute n (s.psize[(0 : Fin 8)]).toNat xs) s)

/-- A command that answers a next state: N is refused; or, with MASKS loaded, it succeeds with its outputs,
or it raises a result that R183 gives it and changes nothing else. -/
theorem exec_next (i : Instr) (s t : State) (h : exec i s = .next t) :
    (¬ LegalCount (pieceCount i) ∧ t = finish .invalidPieceCount 0 s) ∨
    (LegalCount (pieceCount i) ∧ ∃ u, Outputs (loadMasks (pieceCount i) s) i u ∧ t = finish .success 0 u) ∨
    (LegalCount (pieceCount i) ∧ ∃ k info, (k, info) ∈ raisedResults i ∧
      t = finish k info (loadMasks (pieceCount i) s)) := by
  have stop : ∀ {n : Nat} {rs : List Region} {j : Instr} {k : ResultKind} {info : BitVec 8},
      StopOf (loadMasks n s) rs j (.raised k info) → (k, info) ∈ raisedResults j := by
    rintro n rs j k info (⟨_, _, h⟩ | _)
    exact h
  cases i with
  | genmask n =>
    rcases (withMasks_next_iff n s _ t).1 h with h | ⟨hn, u, hu, rfl⟩ | ⟨hn, k, info, hu, rfl⟩
    · exact .inl h
    · cases hu
      exact .inr (.inl ⟨hn, _, .none n, rfl⟩)
    · cases hu
  | scatter n k =>
    rcases (withMasks_next_iff n s _ t).1 h with h | ⟨hn, u, hu, rfl⟩ | ⟨hn, k, info, hu, rfl⟩
    · exact .inl h
    · obtain ⟨rfl, hr, pl, d, hpl, hd, rfl⟩ := (scatterEffect_ok_iff _ _ _ _).1 hu
      exact .inr (.inl ⟨hn, _, .scatter k pl d hr hpl hd, rfl⟩)
    · exact .inr (.inr ⟨hn, _, _, stop (scatterEffect_stopOf _ _ _ _ hu), rfl⟩)
  | gather n k =>
    rcases (withMasks_next_iff n s _ t).1 h with h | ⟨hn, u, hu, rfl⟩ | ⟨hn, k, info, hu, rfl⟩
    · exact .inl h
    · obtain ⟨rfl, hr, xs, hxs, hlen, pl, hv, hfit, rfl⟩ := (gatherEffect_ok_iff _ _ _ _).1 hu
      exact .inr (.inl ⟨hn, _, .gather k xs pl hr hxs hlen hv hfit, rfl⟩)
    · exact .inr (.inr ⟨hn, _, _, stop (gatherEffect_stopOf _ _ _ _ hu), rfl⟩)
  | permute n k =>
    rcases (withMasks_next_iff n s _ t).1 h with h | ⟨hn, u, hu, rfl⟩ | ⟨hn, k, info, hu, rfl⟩
    · exact .inl h
    · obtain ⟨rfl, hr, f, hf, rfl⟩ := (permuteEffect_ok_iff _ _ _ _).1 hu
      exact .inr (.inl ⟨hn, _, .permute k f hr hf, rfl⟩)
    · exact .inr (.inr ⟨hn, _, _, stop (permuteEffect_stopOf _ _ _ _ hu), rfl⟩)
  | unpermute n k =>
    rcases (withMasks_next_iff n s _ t).1 h with h | ⟨hn, u, hu, rfl⟩ | ⟨hn, k, info, hu, rfl⟩
    · exact .inl h
    · obtain ⟨rfl, hr, hfit, xs, hxs, rfl⟩ := (unpermuteEffect_ok_iff _ _ _ _).1 hu
      exact .inr (.inl ⟨hn, _, .unpermute k xs hr hfit hxs, rfl⟩)
    · exact .inr (.inr ⟨hn, _, _, stop (unpermuteEffect_stopOf _ _ _ _ hu), rfl⟩)

/-- A command faults only by an unwritten read in one of its input regions. -/
theorem exec_fault (i : Instr) (s : State) (f : Fault) (h : exec i s = .fault f) :
    ∃ r ∈ inputRegionsOf s i, ∃ a, r.Has a ∧ s.mem.read a = none ∧ f = .unwrittenRead a := by
  have stop : ∀ {n : Nat} {rs : List Region} {j : Instr}, StopOf (loadMasks n s) rs j (.fault f) →
      ∃ r ∈ rs, ∃ a, r.Has a ∧ s.mem.read a = none ∧ f = .unwrittenRead a := by
    intro n rs j hs
    cases hs with
    | unwritten r a hr ha hm => exact ⟨r, hr, a, ha, hm, rfl⟩
  cases i with
  | genmask n => cases ((withMasks_fault_iff n s _ f).1 h).2
  | scatter n k => exact stop (scatterEffect_stopOf _ _ _ _ ((withMasks_fault_iff n s _ f).1 h).2)
  | gather n k => exact stop (gatherEffect_stopOf _ _ _ _ ((withMasks_fault_iff n s _ f).1 h).2)
  | permute n k => exact stop (permuteEffect_stopOf _ _ _ _ ((withMasks_fault_iff n s _ f).1 h).2)
  | unpermute n k => exact stop (unpermuteEffect_stopOf _ _ _ _ ((withMasks_fault_iff n s _ f).1 h).2)

/-- No command is refused. -/
theorem exec_not_refused (i : Instr) (s : State) (r : Refusal) : exec i s ≠ .refused r := by
  cases i <;> exact withMasks_not_refused _ _ _ _

/-! ### The engine's turn -/

theorem engineTurn_idle {s : State} (h : s.status.busy = false) : engineTurn s = .next s := by
  simp [engineTurn, h]

theorem engineTurn_legal {s : State} {w : Word} {i : Instr} (h : s.status.busy = true)
    (hw : s.lcmd = some w) (hi : decode w = .ok i) : engineTurn s = exec i s := by
  simp [engineTurn, h, hw, hi]

theorem engineTurn_illegal {s : State} {w : Word} {e : DecodeError} (h : s.status.busy = true)
    (hw : s.lcmd = some w) (he : decode w = .error e) :
    engineTurn s = .next (finish .illegalCommand 0 s) := by
  simp [engineTurn, h, hw, he, completeIllegal, conclude]

/-- The engine's turn, when it answers a next state: idle it changes nothing; busy it completes the
latched word. -/
theorem engineTurn_next (s t : State) (h : engineTurn s = .next t) :
    (s.status.busy = false ∧ t = s) ∨
    (s.status.busy = true ∧ ∃ w, s.lcmd = some w ∧
      ((∃ i, decode w = .ok i ∧ exec i s = .next t) ∨
        ∃ e, decode w = .error e ∧ t = finish .illegalCommand 0 s)) := by
  cases hb : s.status.busy with
  | false =>
    rw [engineTurn_idle hb] at h
    cases h
    exact .inl ⟨rfl, rfl⟩
  | true =>
    cases hw : s.lcmd with
    | none => simp [engineTurn, hb, hw] at h
    | some w =>
      cases hd : decode w with
      | ok i =>
        rw [engineTurn_legal hb hw hd] at h
        exact .inr ⟨rfl, w, rfl, .inl ⟨i, hd, h⟩⟩
      | error e =>
        rw [engineTurn_illegal hb hw hd] at h
        cases h
        exact .inr ⟨rfl, w, rfl, .inr ⟨e, hd, rfl⟩⟩

/-! ### The host's turn -/

/-- A host read of a byte settles it: the byte given is the one later reads find, and nothing but `stale`
and `draws` can change, only at that address, and only where nothing was settled. -/
theorem peekByte_spec (a : Nat) (s : State) :
    (settledByte s a = some (peekByte a s).1 ∧ (peekByte a s).2 = s) ∨
    (settledByte s a = none ∧ (peekByte a s).1 = Config.freeByte s.draws ∧
      (peekByte a s).2 =
        { s with stale := s.stale.write a (Config.freeByte s.draws), draws := s.draws + 1 }) := by
  unfold peekByte settledByte
  cases h1 : s.mem.read a with
  | some b => simp
  | none =>
    cases h2 : s.stale.read a with
    | some b => simp
    | none => simp

/-- One host transaction that answers a next state. -/
inductive HostEffect (s : State) : HostOp → State → Prop where
  | regRead (slot : Slot) : HostEffect s (.regRead slot) (reply (.word (readReg s (regAt slot))) s)
  | overrun (slot : Slot) (v : Word) (hb : s.status.busy = true) :
      HostEffect s (.regWrite slot v) { s with status := s.status.overrun }
  | regWrite (slot : Slot) (v : Word) (hb : s.status.busy = false) :
      HostEffect s (.regWrite slot v) (writeReg v s (regAt slot))
  | memRd (a : Nat) (ha : a < memBytes s.cfg) (hz : ¬ (s.status.busy = true ∧ OutputByte s a)) :
      HostEffect s (.memRd a) (reply (.byte (peekByte a s).1) (peekByte a s).2)
  | memWr (a : Nat) (b : Byte) (ha : a < memBytes s.cfg) (hb : s.status.busy = false) :
      HostEffect s (.memWr a b) (writeRegion a [b] s)
  | polling (hb : s.status.busy = true) :
      HostEffect s .poll
        { reply (.word (statusWord s.status)) s with prog := .poll :: s.prog }
  | polled (hb : s.status.busy = false) : HostEffect s .poll (reply (.word (statusWord s.status)) s)

theorem hostOp_next (s : State) (op : HostOp) (t : State) (h : hostOp s op = .next t) :
    HostEffect s op t := by
  cases op with
  | regRead slot =>
    cases h
    exact .regRead slot
  | regWrite slot v =>
    cases h
    unfold regWrite
    split
    · exact .overrun slot v (by assumption)
    · exact .regWrite slot v (Bool.eq_false_of_not_eq_true (by assumption))
  | memRd a =>
    simp only [hostOp, hostMemRd] at h
    split at h
    · cases h
    · split at h
      · cases h
      · cases h
        exact .memRd a (by omega) (by assumption)
  | memWr a b =>
    simp only [hostOp, hostMemWr] at h
    split at h
    · cases h
    · split at h
      · cases h
      · cases h
        exact .memWr a b (by omega) (Bool.eq_false_of_not_eq_true (by assumption))
  | poll =>
    simp only [hostOp] at h
    split at h
    · cases h
      exact .polling (by assumption)
    · cases h
      exact .polled (Bool.eq_false_of_not_eq_true (by assumption))

/-- The host's turn, when it answers a next state: nothing with no program, else its next transaction. -/
theorem hostTurn_next (s t : State) (h : hostTurn s = .next t) :
    (s.prog = [] ∧ t = s) ∨
    ∃ op rest, s.prog = op :: rest ∧ HostEffect { s with prog := rest } op t := by
  unfold hostTurn at h
  split at h
  · rename_i hp
    cases h
    exact .inl ⟨hp, rfl⟩
  · rename_i op rest hp
    exact .inr ⟨op, rest, hp, hostOp_next _ _ _ h⟩

/-! ### A step -/

theorem step_host {s : State} (h : nextTurn s = .host) : step s = hostTurn (tookTurn s) := by
  simp [step, h]

theorem step_engine {s : State} (h : nextTurn s = .engine) : step s = engineTurn (tookTurn s) := by
  simp [step, h]

theorem step_reset {s : State} (h : nextTurn s = .reset) : step s = .next (resetInput (tookTurn s)) := by
  simp [step, h]

/-- A step that answers a next state is the host's turn, the engine's, or the reset input. -/
theorem step_next (s t : State) (h : step s = .next t) :
    (nextTurn s = .host ∧ hostTurn (tookTurn s) = .next t) ∨
    (nextTurn s = .engine ∧ engineTurn (tookTurn s) = .next t) ∨
    (nextTurn s = .reset ∧ t = resetInput (tookTurn s)) := by
  cases hn : nextTurn s with
  | host => exact .inl ⟨rfl, step_host hn ▸ h⟩
  | engine => exact .inr (.inl ⟨rfl, step_engine hn ▸ h⟩)
  | reset =>
    rw [step_reset hn] at h
    cases h
    exact .inr (.inr ⟨rfl, rfl⟩)

end Sys2Proof.Machine
end

