-- ==== Sys2Proof/Machine/Assembler.lean ====
section
/-!
DEFINITION. The spec's notation for command words and host programs (spec/30_encoding.md R80 to R82), as
data that expands to the host's transactions.
-/

namespace Sys2Proof.Machine

/-- The four commands that have a short form with K = N (R81). -/
inductive PairOp where
  | scatter
  | gather
  | permute
  | unpermute
  deriving DecidableEq, Repr

/-- One command of the notation (R80, R81). -/
inductive AsmCommand where
  /-- A command with all its operands written out. -/
  | full (i : Instr)
  /-- `SCATTER n` and its like, which mean `SCATTER n, n`. -/
  | short (op : PairOp) (n : Nat)
  /-- `.cmd 0x<hex>`: a raw word. -/
  | raw (w : Word)
  deriving DecidableEq, Repr

/-- The command with operands n and k. -/
def PairOp.instr : PairOp → Nat → Nat → Instr
  | .scatter, n, k => .scatter n k
  | .gather, n, k => .gather n k
  | .permute, n, k => .permute n k
  | .unpermute, n, k => .unpermute n k

/-- The word of a command of the notation (R80, R81). -/
def AsmCommand.word : AsmCommand → Word
  | .full i => encode i
  | .short op n => encode (op.instr n n)
  | .raw w => w

/-- The mnemonic syntax of a command (R80). -/
def commandText : Instr → String
  | .genmask n => "GENMASK " ++ toString n
  | .scatter n k => "SCATTER " ++ toString n ++ ", " ++ toString k
  | .gather n k => "GATHER " ++ toString n ++ ", " ++ toString k
  | .permute n k => "PERMUTE " ++ toString n ++ ", " ++ toString k
  | .unpermute n k => "UNPERMUTE " ++ toString n ++ ", " ++ toString k

/-- The slot of a register of R23; for a reserved offset, the first of them, 0x38. -/
def Reg.slot : Reg → Slot
  | .cmd => 0
  | .status => 1
  | .srcAddr => 2
  | .srcLen => 3
  | .dstAddr => 4
  | .dstSize => 5
  | .masks => 6
  | .reserved => 7
  | .paddr p => ⟨8 + p.val, by omega⟩
  | .psize p => ⟨16 + p.val, by omega⟩

/-- A line of a host program (R82). -/
inductive HostLine where
  /-- `WR REG, value`. -/
  | wr (reg : Reg) (v : Word)
  /-- `RD REG`. -/
  | rd (reg : Reg)
  /-- `DO <command>`. -/
  | doCommand (c : AsmCommand)
  /-- `POLL`. -/
  | poll
  /-- `MW addr, b0 b1 ...`. -/
  | mw (addr : Nat) (bs : Bytes)
  /-- `MR addr, n`. -/
  | mr (addr n : Nat)
  deriving DecidableEq, Repr

/-- The transactions of a line, in order (R82). -/
def HostLine.ops : HostLine → List HostOp
  | .wr reg v => [.regWrite reg.slot v]
  | .rd reg => [.regRead reg.slot]
  | .doCommand c => [.regWrite 0 c.word]
  | .poll => [.poll]
  | .mw addr bs => bs.mapIdx fun i b => .memWr (addr + i) b
  | .mr addr n => (List.range n).map fun i => .memRd (addr + i)

/-- Place a host program after what the host has still to do (R22; log 12). -/
def loadProgram (lines : List HostLine) (s : State) : State :=
  { s with prog := s.prog ++ lines.flatMap HostLine.ops }

end Sys2Proof.Machine
end

