-- ==== Sys2Proof/Tests/Slice0.lean ====
section
/-!
SUPPORT. Small tests by the kernel: words and bytes written out from spec/ (95_test_vectors.md names the
vectors; the other expected values are worked out by hand from the rule cited), and one witness for every
statement that has hypotheses.
-/

open Sys2Proof Sys2Proof.Machine

namespace Sys2Proof.Tests

/-! ### States the tests start from -/

/-- The eight PADDR or PSIZE registers, of which the first two are not 0. -/
def pair (a b : Word) : Vector Word 8 := #v[a, b, 0, 0, 0, 0, 0, 0]

/-- "HELLO" (95_test_vectors.md H1). -/
def hello : Bytes := [0x48, 0x45, 0x4C, 0x4C, 0x4F]

/-- SHA-256 of "HELLO" (95_test_vectors.md H1). -/
def helloDigest : BitVec 256 := 0x3733cd977ff8eb18b987357e22ced99f46097f31ecb239e878ae63760e83e4d5

/-- Piece 0 of S1. -/
def helloPiece0 : Bytes :=
  [0x41, 0x41, 0x05, 0x00, 0x00, 0x00, 0x33, 0x33, 0x61, 0x33, 0x37, 0x6C, 0x67, 0x39] ++
  [0x68, 0x32, 0x31, 0x35, 0x32, 0x61, 0x6C, 0x33, 0x36, 0x38, 0x37, 0x31, 0x67, 0x62] ++
  [0x39, 0x6D, 0x3D, 0x61, 0x36, 0x37, 0x30, 0x32, 0x65, 0x64, 0x40, 0x4C, 0x45]

/-- Piece 1 of S1. -/
def helloPiece1 : Bytes :=
  [0x57, 0x5C, 0x00, 0x00, 0x00, 0x00, 0x37, 0x33, 0x66, 0x3D, 0x66, 0x32, 0x60, 0x30] ++
  [0x33, 0x3D, 0x37, 0x67, 0x32, 0x67, 0x31, 0x6C, 0x34, 0x31, 0x66, 0x33, 0x61, 0x32] ++
  [0x33, 0x30, 0x32, 0x65, 0x33, 0x36, 0x65, 0x39, 0x34, 0x35, 0x4D, 0x4C, 0x0A]

/-- The start of SE1: "HELLO" at 0, containers of 64 bytes at 0x100 and 0x140. -/
def toScatter : State :=
  { State.reset with
    srcLen := 5, paddr := pair 0x100 0x140, psize := pair 64 64
    mem := Memory.writeBytes [] 0 hello }

/-- The start of GA1: the S1 pieces at 0x100 and 0x140, an output region of 16 bytes at 0x180. -/
def toGather : State :=
  { State.reset with
    dstAddr := 0x180, dstSize := 16, paddr := pair 0x100 0x140, psize := pair 41 41
    mem := Memory.writeBytes (Memory.writeBytes [] 0x100 helloPiece0) 0x140 helloPiece1 }

/-- The input of V4, 12 34 56 78, at 0, containers of 4 bytes at 0x10 and 0x20. -/
def toPermute : State :=
  { State.reset with
    srcLen := 4, paddr := pair 0x10 0x20, psize := pair 4 4
    mem := Memory.writeBytes [] 0 [0x12, 0x34, 0x56, 0x78] }

/-- The pieces of V4, 30 7C and 16 52, at 0x10 and 0x20, an output region of 4 bytes at 0x40. -/
def toUnpermute : State :=
  { State.reset with
    dstAddr := 0x40, dstSize := 4, paddr := pair 0x10 0x20, psize := pair 2 2
    mem := Memory.writeBytes (Memory.writeBytes [] 0x10 [0x30, 0x7C]) 0x20 [0x16, 0x52] }

/-- A state with a command in flight and the next turn fixed. -/
def inFlight (t : Turn) (w : Word) (s : State) : State := { accept w s with turns := [t] }

/-- A state in which the host makes one transaction. -/
def hostTo (op : HostOp) (s : State) : State := { s with turns := [.host], prog := [op] }

/-- STATUS as a word after an outcome, when it is a next state. -/
def statusAfter (o : Host.Outcome State Fault Refusal) : Option Word :=
  match o with
  | .next t => some (statusWord t.status)
  | _ => none

/-- Something of the state after an outcome, when it is a next state. -/
def seenAfter {α : Type} (f : State → α) (o : Host.Outcome State Fault Refusal) : Option α :=
  match o with
  | .next t => some (f t)
  | _ => none

/-- The bytes of memory at an address, as the engine reads them. -/
def bytesAt (a n : Nat) (s : State) : Option Bytes := (s.mem.readBytes a n).toOption

/-- The fault an outcome is, if it is one. -/
def faultOf (o : Host.Outcome State Fault Refusal) : Option Fault :=
  match o with
  | .fault f => some f
  | _ => none

/-! ### Well-formedness: an operand that does not fit its field is refused -/

theorem test_genmask_field_too_wide : ¬ (Instr.genmask 16).WellFormed := by decide
theorem test_scatter_n_too_wide : ¬ (Instr.scatter 16 2).WellFormed := by decide
theorem test_scatter_k_too_wide : ¬ (Instr.scatter 2 16).WellFormed := by decide
theorem test_gather_n_too_wide : ¬ (Instr.gather 16 2).WellFormed := by decide
theorem test_gather_k_too_wide : ¬ (Instr.gather 2 16).WellFormed := by decide
theorem test_permute_n_too_wide : ¬ (Instr.permute 16 2).WellFormed := by decide
theorem test_permute_k_too_wide : ¬ (Instr.permute 2 16).WellFormed := by decide
theorem test_unpermute_n_too_wide : ¬ (Instr.unpermute 16 2).WellFormed := by decide
theorem test_unpermute_k_too_wide : ¬ (Instr.unpermute 2 16).WellFormed := by decide

/-! ### Decoding: words written out field by field, K, N, OP from the left (R70) -/

theorem test_decode_genmask_3 : decode 0b0000_0011_0001 = .ok (.genmask 3) := by rfl
theorem test_decode_scatter_2_3 : decode 0b0011_0010_0010 = .ok (.scatter 2 3) := by rfl
theorem test_decode_gather_2_1 : decode 0b0001_0010_0011 = .ok (.gather 2 1) := by rfl
theorem test_decode_permute_4_8 : decode 0b1000_0100_0100 = .ok (.permute 4 8) := by rfl
theorem test_decode_unpermute_15_0 : decode 0b0000_1111_0101 = .ok (.unpermute 15 0) := by rfl

/-- M18, M19 and M20. -/
theorem test_decode_reserved_opcodes :
    decode 0x0 = .error .reservedOpcode ∧ decode 0x26 = .error .reservedOpcode ∧
    decode 0x2F = .error .reservedOpcode := ⟨rfl, rfl, rfl⟩
/-- M17, and the highest reserved bit. -/
theorem test_decode_reserved_bits :
    decode 0x1021 = .error .reservedBits ∧ decode 0x8000000000000222 = .error .reservedBits := ⟨rfl, rfl⟩
/-- M16. -/
theorem test_decode_genmask_count : decode 0x121 = .error .genmaskCount := by rfl

/-- Programs 1 to 3. -/
theorem test_encode_program_words :
    encode (.genmask 9) = 0x91 ∧ encode (.scatter 2 2) = 0x222 ∧ encode (.gather 2 2) = 0x223 ∧
    encode (.permute 4 4) = 0x444 ∧ encode (.unpermute 4 4) = 0x445 := by decide

theorem test_table_word :
    decodeTableWord 64 0x322 = some (.scatter 2 3) ∧ decodeTableWord 16 0x031 = some (.genmask 3) ∧
    decodeTableWord 64 0x121 = none := ⟨rfl, rfl, rfl⟩

/-- The step after `withFetchWord` runs the word: M3 from reset. -/
theorem test_fetch_word_runs :
    seenAfter State.masks (step (State.reset.withFetchWord 64 0x031)) = some 0x249249 := by decide

/-! ### Digest and header (95_test_vectors.md section 2.3) -/

theorem test_sha256_hello : sha256 hello = helloDigest := by decide +kernel
theorem test_sha256_empty :
    sha256 [] = 0xe3b0c44298fc1c149afbf4c8996fb92427ae41e4649b934ca495991b7852b855 := by decide +kernel
theorem test_sha256_letter_a :
    sha256 [0x41] = 0x559aead08264d5795d3909718cdd05abd49572e84fe55590eef31a88a08fdffd := by
  decide +kernel

/-- The first 16 bytes of H1, and its bytes 4 to 11 with LEN_ORDER = big. -/
theorem test_header_hello :
    (buildHeader Config.standard hello helloDigest).take 16
      = [0x43, 0x55, 0x49, 0x54, 5, 0, 0, 0, 0, 0, 0, 0, 0x33, 0x37, 0x33, 0x33] ∧
    slice (buildHeader { Config.standard with lenOrder := .big } hello helloDigest) 4 12
      = [0, 0, 0, 0, 0, 0, 0, 5] := by decide +kernel

/-! ### Commands: one step each -/

/-- M3. -/
theorem test_genmask_3 :
    seenAfter (fun t => (statusWord t.status, t.masks)) (exec (.genmask 3) State.reset)
      = some (0x2, 0x249249) := by decide
/-- M9. -/
theorem test_genmask_9 :
    seenAfter (fun t => (statusWord t.status, t.masks)) (exec (.genmask 9) State.reset)
      = some (0x12, 0) := by decide

/-- SE1 with S1. -/
theorem test_scatter_hello :
    seenAfter (fun t => (bytesAt 0x100 41 t, bytesAt 0x140 41 t, t.psize)) (exec (.scatter 2 2) toScatter)
      = some (some helloPiece0, some helloPiece1, pair 41 41) := by decide +kernel
/-- SE4: overlapping containers. -/
theorem test_scatter_overlap :
    statusAfter (exec (.scatter 2 2) { toScatter with paddr := pair 0x100 0x120 }) = some 0x372 := by
  decide +kernel

/-- GA2: the payload just fits. -/
theorem test_gather_hello :
    seenAfter (fun t => (bytesAt 0x180 5 t, t.dstSize)) (exec (.gather 2 2) { toGather with dstSize := 5 })
      = some (some hello, 5) := by decide +kernel
/-- T5: bit 0 of byte 6 of piece 0 flipped. -/
theorem test_gather_tampered :
    statusAfter (exec (.gather 2 2) { toGather with mem := toGather.mem.write 0x106 0x32 })
      = some 0x62 := by decide +kernel

/-- V4. -/
theorem test_permute_v4 :
    seenAfter (fun t => (bytesAt 0x10 2 t, bytesAt 0x20 2 t, t.psize)) (exec (.permute 2 2) toPermute)
      = some (some [0x30, 0x7C], some [0x16, 0x52], pair 2 2) := by decide +kernel
/-- As SE2 on PERMUTE: a container of 1 byte for PLEN = 2. -/
theorem test_permute_small :
    statusAfter (exec (.permute 2 2) { toPermute with psize := pair 4 1 }) = some 0x272 := by
  decide +kernel

/-- V4 back. -/
theorem test_unpermute_v4 :
    seenAfter (fun t => (bytesAt 0x40 4 t, t.dstSize)) (exec (.unpermute 2 2) toUnpermute)
      = some (some [0x12, 0x34, 0x56, 0x78], 4) := by decide +kernel
/-- As UP2: 3 bytes for N * PLEN = 4. -/
theorem test_unpermute_small :
    statusAfter (exec (.unpermute 2 2) { toUnpermute with dstSize := 3 }) = some 0x272 := by
  decide +kernel

/-- An unwritten last byte of the payload ends the run (R52). -/
theorem test_scatter_unwritten :
    faultOf (exec (.scatter 2 2) { toScatter with srcLen := 6 }) = some (.unwrittenRead 5) := by
  decide +kernel

/-! ### Registers and the host -/

/-- RP2 and RP3: BUSY after acceptance, then OVR after a dropped write. -/
theorem test_overrun :
    statusAfter (step (hostTo (.regWrite 0 0x021) State.reset)) = some 0x1 ∧
    seenAfter (fun t => (statusWord t.status, t.srcLen))
      (step (hostTo (.regWrite 3 7) (accept 0x021 State.reset))) = some (0x5, 0) := by decide
/-- RP7: STATUS, MASKS and offset 0x38 ignore a write while idle. -/
theorem test_ignored_writes :
    seenAfter (fun t => (statusWord t.status, t.masks, t.lcmd)) (step (hostTo (.regWrite 6 5) State.reset))
      = some (0, 0, none) ∧
    statusAfter (step (hostTo (.regWrite 1 0xFF) State.reset)) = some 0 ∧
    seenAfter (fun t => readReg t (regAt 7)) (step (hostTo (.regWrite 7 1) State.reset)) = some 0 := by
  decide
/-- R200, R201: reset clears the registers, and the payload is no longer written since reset but kept for
the host (log 9). -/
theorem test_reset_input :
    seenAfter (fun t => (t.srcLen, t.lcmd)) (step (inFlight .reset 0x222 toScatter)) = some (0, none) ∧
    seenAfter (fun t => (t.mem.read 4, settledByte t 4)) (step (inFlight .reset 0x222 toScatter))
      = some (none, some 0x4F) := by decide +kernel

/-! ### Witnesses: each statement's hypotheses are met -/

theorem test_witness_DecodeOfEncode :
    (Instr.genmask 15).WellFormed ∧ (Instr.scatter 15 15).WellFormed ∧ (Instr.gather 0 15).WellFormed ∧
    (Instr.permute 15 0).WellFormed ∧ (Instr.unpermute 8 8).WellFormed := by decide

theorem test_witness_EncodeOfDecode : decode 0x031 = .ok (.genmask 3) := by rfl

/-- The illegality of R73, on the fields of a word. -/
def breaksR73 (op k rsv : Nat) : Bool := (op == 0 || 6 ≤ op) || rsv != 0 || (op == 1 && k != 0)

/-- Each clause of R73 at its boundary, and the legal words next to them. -/
theorem test_witness_IllegalWordCompletes :
    nextTurn (inFlight .engine 0x26 State.reset) = .engine ∧
    (inFlight .engine 0x26 State.reset).status.busy = true ∧
    (inFlight .engine 0x26 State.reset).lcmd = some 0x26 ∧
    ([0x20, 0x26, 0x2F, 0x1022, 0x121].map fun w => breaksR73 (w % 16) (w / 256 % 16) (w / 4096))
      = [true, true, true, true, true] ∧
    ([0x021, 0x225, 0xFF2].map fun w => breaksR73 (w % 16) (w / 256 % 16) (w / 4096))
      = [false, false, false] ∧
    (statusAfter (step (inFlight .engine 0x021 State.reset))).isSome := by decide

theorem test_witness_MaskOwnership : LegalCount 2 ∧ LegalCount 8 ∧ 7 < 8 := by decide
theorem test_witness_MaskPartition : LegalCount 2 ∧ LegalCount 8 ∧ (0 : Nat) ≠ 7 := by decide
theorem test_witness_ForwardBit : LegalCount 2 ∧ LegalCount 8 ∧ 7 < 8 := by decide
theorem test_witness_InverseBit : LegalCount 8 ∧ 7 < 8 := by decide
theorem test_witness_PermutePieces : LegalCount 3 ∧ 2 < 3 ∧ 0 < (1 + 3 - 1) / 3 := by decide
theorem test_witness_InverseLaw :
    LegalCount 2 ∧ [[0x30, 0x7C], [0x16, 0x52]].length = 2 ∧
    ∀ x ∈ [([0x30, 0x7C] : Bytes), [0x16, 0x52]], x.length = 2 := by decide
theorem test_witness_PopcountKept : LegalCount 2 ∧ LegalCount 8 := by decide
theorem test_witness_HexRenderingInjective :
    hexDigest .lower helloDigest = hexDigest .lower (sha256 hello) := by decide +kernel
theorem test_witness_FrameParses : hello.length < 2 ^ 64 := by decide
theorem test_witness_GenmaskCompletes : LegalCount 2 ∧ LegalCount 8 := by decide

theorem test_witness_ScatterCompletes :
    LegalCount 2 ∧ ContainersReady 2 (76 + toScatter.srcLen.toNat) toScatter ∧
    Holds toScatter.mem (srcRegion toScatter) hello ∧ digestOf toScatter.cfg hello = some helloDigest := by
  decide +kernel

theorem test_witness_PermuteCompletes :
    LegalCount 2 ∧ ContainersReady 2 toPermute.srcLen.toNat toPermute ∧
    Holds toPermute.mem (srcRegion toPermute) [0x12, 0x34, 0x56, 0x78] := by decide +kernel

/-- GA2: the output region holds exactly the payload. -/
def fittingGather : State := { toGather with dstSize := 5 }

theorem test_witness_GatherCompletes :
    LegalCount 2 ∧ PiecesReady 2 fittingGather ∧
    HoldsPieces 2 fittingGather [helloPiece0, helloPiece1] ∧ 76 ≤ 2 * 41 ∧
    fromLen8 .little (slice (unpermute 2 41 [helloPiece0, helloPiece1]) 4 12) = 5 ∧
    5 ≤ 2 * 41 - 76 ∧ slice (unpermute 2 41 [helloPiece0, helloPiece1]) 76 81 = hello ∧
    digestOf fittingGather.cfg hello = some helloDigest ∧
    hexDigest .lower helloDigest = slice (unpermute 2 41 [helloPiece0, helloPiece1]) 12 76 ∧
    5 ≤ fittingGather.dstSize.toNat := by decide +kernel

theorem test_witness_UnpermuteCompletes :
    LegalCount 2 ∧ PiecesReady 2 toUnpermute ∧
    HoldsPieces 2 toUnpermute [[0x30, 0x7C], [0x16, 0x52]] ∧ 2 * 2 ≤ toUnpermute.dstSize.toNat := by
  decide +kernel

theorem test_witness_IllegalPieceCount :
    ¬ LegalCount 0 ∧ ¬ LegalCount 1 ∧ ¬ LegalCount 9 ∧ ¬ LegalCount 15 := by decide
theorem test_witness_CountMismatch : LegalCount 2 ∧ (3 : Nat) ≠ 2 ∧ LegalCount 8 ∧ (0 : Nat) ≠ 8 := by
  decide
/-- GA4: PSIZE[1] = 40. -/
theorem test_witness_UnequalPieces :
    LegalCount 2 ∧ ∃ p : Fin 8, p.val < 2 ∧ (pair 41 40)[p] ≠ (pair 41 40)[(0 : Fin 8)] := by decide

/-- The three conditions of `Obligations.ContainerErrors` for N = 2 and L = 81. -/
abbrev srcOutside (s : State) : Prop :=
  ¬ (srcRegion s).InMem s.cfg ∨ ∃ p : Fin 8, p.val < 2 ∧ ¬ (pieceRegion s p).InMem s.cfg
abbrev containerSmall (s : State) : Prop :=
  ∃ p : Fin 8, p.val < 2 ∧ (s.psize[p]).toNat < (76 + 5 + 2 - 1) / 2
abbrev containerOverlap (s : State) : Prop :=
  (∃ p : Fin 8, p.val < 2 ∧ (pieceRegion s p).Overlap (srcRegion s)) ∨
    ∃ p q : Fin 8, p.val < q.val ∧ q.val < 2 ∧ (pieceRegion s p).Overlap (pieceRegion s q)

/-- A payload that ends one past MEM_BYTES. -/
def scatterOutside : State := { toScatter with srcAddr := 0xFFC }
/-- SE2: a container one byte too small. -/
def scatterSmall : State := { toScatter with psize := pair 64 40 }
/-- Containers that share one byte, and hold PLEN bytes exactly. -/
def scatterOverlap : State := { toScatter with paddr := pair 0x100 0x128, psize := pair 41 41 }

/-- Each of the three clauses of `ContainerErrors` at its boundary. -/
theorem test_witness_ContainerErrors :
    LegalCount 2 ∧ srcOutside scatterOutside ∧
    (¬ srcOutside scatterSmall ∧ containerSmall scatterSmall) ∧
    ¬ srcOutside scatterOverlap ∧ ¬ containerSmall scatterOverlap ∧ containerOverlap scatterOverlap := by
  decide +kernel

/-- The three conditions of `Obligations.OutputRegionErrors` for N = 2. -/
abbrev dstOutside (s : State) : Prop :=
  ¬ (dstRegion s).InMem s.cfg ∨ ∃ p : Fin 8, p.val < 2 ∧ ¬ (pieceRegion s p).InMem s.cfg
abbrev dstSmall (s : State) : Prop := s.dstSize.toNat < 2 * (s.psize[(0 : Fin 8)]).toNat
abbrev dstOverlap (s : State) : Prop := ∃ p : Fin 8, p.val < 2 ∧ (pieceRegion s p).Overlap (dstRegion s)

/-- An output region that ends one past MEM_BYTES. -/
def gatherOutside : State := { toGather with dstAddr := 0xFF1 }
/-- An output region that shares its last byte with piece 0. -/
def gatherOverlap : State := { toGather with dstAddr := 0xF1 }
/-- An output region one byte too small for UNPERMUTE. -/
def unpermuteSmall : State := { toGather with dstSize := 81 }
/-- An output region that is large enough and shares its first byte with piece 1. -/
def unpermuteOverlap : State := { toGather with dstAddr := 0x168, dstSize := 82 }

/-- Each of the four clauses of `OutputRegionErrors` at its boundary. -/
theorem test_witness_OutputRegionErrors :
    LegalCount 2 ∧ (∀ p : Fin 8, p.val < 2 → toGather.psize[p] = toGather.psize[(0 : Fin 8)]) ∧
    dstOutside gatherOutside ∧ (¬ dstOutside gatherOverlap ∧ dstOverlap gatherOverlap) ∧
    (¬ dstOutside unpermuteSmall ∧ dstSmall unpermuteSmall) ∧
    ¬ dstOutside unpermuteOverlap ∧ ¬ dstSmall unpermuteOverlap ∧ dstOverlap unpermuteOverlap := by
  decide +kernel

/-- SE11. -/
theorem test_witness_DigestFailureReported :
    LegalCount 2 ∧
    ContainersReady 2 (76 + 5) { toScatter with cfg := { Config.standard with digest := .failing } } ∧
    Holds toScatter.mem (srcRegion toScatter) hello ∧
    digestOf { Config.standard with digest := .failing } hello = none := by decide +kernel

/-- Three all-zero pieces of 25 bytes: 75 bytes, one fewer than a header. -/
def shortPieces : State :=
  { toGather with
    paddr := #v[0x100, 0x120, 0x140, 0, 0, 0, 0, 0], psize := #v[25, 25, 25, 0, 0, 0, 0, 0]
    mem := Memory.writeBytes [] 0x100 (List.replicate 96 0) }
/-- T3: a stored length of 7 for the 6 bytes after the header. -/
def longLength : State := { toGather with mem := toGather.mem.write 0x142 0x02 }
/-- GA1 with a digest that fails. -/
def failingGather : State := { toGather with cfg := { Config.standard with digest := .failing } }
/-- GA14: two all-zero pieces of 38 bytes, just a header. -/
def zeroPieces : State :=
  { toGather with psize := pair 38 38, mem := Memory.writeBytes [] 0x100 (List.replicate 128 0) }
/-- GA3: an output region one byte too small. -/
def smallGather : State := { toGather with dstSize := 4 }

/-- The stored length, the stored digest and the delimited payload of a reconstructed buffer. -/
def lenOf (n plen : Nat) (xs : List Bytes) : Nat := fromLen8 .little (slice (unpermute n plen xs) 4 12)
def hexOf (n plen : Nat) (xs : List Bytes) : Bytes := slice (unpermute n plen xs) 12 76
def payloadOf (n plen : Nat) (xs : List Bytes) : Bytes :=
  slice (unpermute n plen xs) 76 (76 + lenOf n plen xs)

/-- Each of the five clauses of `GatherVerificationErrors` at its boundary. -/
theorem test_witness_GatherVerificationErrors :
    (LegalCount 3 ∧ PiecesReady 3 shortPieces ∧
      HoldsPieces 3 shortPieces (List.replicate 3 (List.replicate 25 0)) ∧ 3 * 25 < 76) ∧
    (LegalCount 2 ∧ PiecesReady 2 longLength ∧
      HoldsPieces 2 longLength [helloPiece0, flipBit helloPiece1 2 1] ∧ 76 ≤ 2 * 41 ∧
      lenOf 2 41 [helloPiece0, flipBit helloPiece1 2 1] = 2 * 41 - 76 + 1) ∧
    (PiecesReady 2 failingGather ∧ HoldsPieces 2 failingGather [helloPiece0, helloPiece1] ∧
      lenOf 2 41 [helloPiece0, helloPiece1] ≤ 2 * 41 - 76 ∧
      digestOf failingGather.cfg (payloadOf 2 41 [helloPiece0, helloPiece1]) = none) ∧
    (PiecesReady 2 zeroPieces ∧
      HoldsPieces 2 zeroPieces [List.replicate 38 0, List.replicate 38 0] ∧ 76 ≤ 2 * 38 ∧
      lenOf 2 38 [List.replicate 38 0, List.replicate 38 0] = 2 * 38 - 76 ∧
      digestOf zeroPieces.cfg (payloadOf 2 38 [List.replicate 38 0, List.replicate 38 0])
        = some (sha256 []) ∧
      hexDigest .lower (sha256 []) ≠ hexOf 2 38 [List.replicate 38 0, List.replicate 38 0]) ∧
    (PiecesReady 2 smallGather ∧ HoldsPieces 2 smallGather [helloPiece0, helloPiece1] ∧
      digestOf smallGather.cfg (payloadOf 2 41 [helloPiece0, helloPiece1]) = some helloDigest ∧
      hexDigest .lower helloDigest = hexOf 2 41 [helloPiece0, helloPiece1] ∧
      smallGather.dstSize.toNat + 1 = lenOf 2 41 [helloPiece0, helloPiece1]) := by
  refine ⟨?_, ?_, ?_, ?_, ?_⟩ <;> decide +kernel

/-- From reset: N illegal, K ≠ N, and an illegal word. -/
theorem test_witness_FailureKeepsState :
    (∀ w : Word, nextTurn (inFlight .engine w State.reset) = .engine ∧
      (inFlight .engine w State.reset).status.busy = true ∧
      (inFlight .engine w State.reset).lcmd = some w) ∧
    seenAfter (fun t => t.status.err) (step (inFlight .engine 0x091 State.reset)) = some 1 ∧
    seenAfter (fun t => t.status.err) (step (inFlight .engine 0x322 State.reset)) = some 2 ∧
    seenAfter (fun t => t.status.err) (step (inFlight .engine 0x121 State.reset)) = some 8 := by
  refine ⟨fun w => ⟨rfl, rfl, rfl⟩, ?_, ?_, ?_⟩ <;> decide
/-- A result of each kind that a clause speaks of: SE7, SE2, GA4, SE11, GA13 and T5. -/
theorem test_witness_ResultsAreLegal :
    statusAfter (exec (.scatter 2 3) toScatter) = some 0x22 ∧
    statusAfter (exec (.scatter 2 2) scatterSmall) = some 0x272 ∧
    statusAfter (exec (.gather 2 2) { toGather with psize := pair 41 40 }) = some 0x32 ∧
    statusAfter (exec (.unpermute 2 2) { toGather with psize := pair 41 40 }) = some 0x32 ∧
    statusAfter (exec (.gather 2 2) failingGather) = some 0x42 ∧
    statusAfter (exec (.gather 3 3) shortPieces) = some 0x152 ∧
    statusAfter (exec (.gather 2 2) { toGather with mem := toGather.mem.write 0x106 0x32 })
      = some 0x62 := by decide +kernel
theorem test_witness_CompletionReports : (statusAfter (exec (.scatter 2 2) State.reset)).isSome := by
  decide
theorem test_witness_RegisterFrame :
    (statusAfter (exec (.permute 2 2) toPermute)).isSome ∧
    (statusAfter (exec (.genmask 9) State.reset)).isSome := by decide +kernel

/-- Each command answers a next state with outputs. -/
theorem test_witness_MemoryFrame :
    statusAfter (exec (.genmask 2) State.reset) = some 2 ∧
    statusAfter (exec (.scatter 2 2) toScatter) = some 2 ∧
    statusAfter (exec (.permute 2 2) toPermute) = some 2 ∧
    statusAfter (exec (.gather 2 2) toGather) = some 2 ∧
    statusAfter (exec (.unpermute 2 2) toUnpermute) = some 2 := by decide +kernel

/-- One command that completes and one that faults. -/
theorem test_witness_OutcomeIgnoresStatus :
    (statusAfter (exec (.genmask 2) State.reset)).isSome ∧
    faultOf (exec (.permute 2 2) { toPermute with srcLen := 5 }) = some (.unwrittenRead 4) := by
  decide +kernel

/-- The last byte of each input unwritten. -/
theorem test_witness_UnwrittenInputFaults :
    LegalCount 2 ∧
    (srcRegion { toScatter with srcLen := 6 }).Has 5 ∧ toScatter.mem.read 5 = none ∧
    ContainersReady 2 (76 + 6) { toScatter with srcLen := 6 } ∧
    (srcRegion { toPermute with srcLen := 5 }).Has 4 ∧ toPermute.mem.read 4 = none ∧
    ContainersReady 2 5 { toPermute with srcLen := 5 } ∧
    (pieceRegion { toUnpermute with psize := pair 3 3 } 1).Has 0x22 ∧ toUnpermute.mem.read 0x22 = none ∧
    PiecesReady 2 { toUnpermute with psize := pair 3 3, dstSize := 6 } ∧ 2 * 3 ≤ 6 := by
  refine ⟨?_, ?_, ?_, ?_, ?_, ?_, ?_, ?_, ?_, ?_, ?_⟩ <;> decide +kernel

theorem test_witness_GatherIsSound :
    seenAfter (fun t => t.status.err) (exec (.gather 2 2) toGather) = some 0 := by decide +kernel

/-- The first and the last register of each group, and a reserved offset. -/
theorem test_witness_RegisterReads :
    ∀ slot ∈ [(0 : Slot), 1, 6, 7, 8, 15, 16, 23, 24, 31],
      nextTurn (hostTo (.regRead slot) State.reset) = .host ∧
      (hostTo (.regRead slot) State.reset).prog = [.regRead slot] := by decide
theorem test_witness_IdleRegisterWrite :
    ∀ slot ∈ [(1 : Slot), 2, 5, 6, 7, 8, 23, 24, 31],
      nextTurn (hostTo (.regWrite slot 9) State.reset) = .host ∧
      (hostTo (.regWrite slot 9) State.reset).prog = [.regWrite slot 9] ∧
      (hostTo (.regWrite slot 9) State.reset).status.busy = false ∧ slot.val ≠ 0 := by decide
theorem test_witness_BusyRegisterWrite :
    ∀ slot ∈ [(0 : Slot), 1, 2, 31],
      nextTurn (hostTo (.regWrite slot 9) (accept 0x021 State.reset)) = .host ∧
      (hostTo (.regWrite slot 9) (accept 0x021 State.reset)).prog = [.regWrite slot 9] ∧
      (hostTo (.regWrite slot 9) (accept 0x021 State.reset)).status.busy = true := by decide
theorem test_witness_Acceptance :
    nextTurn (hostTo (.regWrite 0 0x021) State.reset) = .host ∧
    (hostTo (.regWrite 0 0x021) State.reset).prog = [.regWrite 0 0x021] ∧
    (hostTo (.regWrite 0 0x021) State.reset).status.busy = false := by decide
theorem test_witness_InFlightStable :
    nextTurn (hostTo (.regWrite 2 9) (accept 0x021 State.reset)) = .host ∧
    (accept 0x021 State.reset).status.busy = true ∧
    (statusAfter (step (hostTo (.regWrite 2 9) (accept 0x021 State.reset)))).isSome := by decide
/-- Idle and busy. -/
theorem test_witness_PollLoops :
    nextTurn (hostTo .poll State.reset) = .host ∧ (hostTo .poll State.reset).prog = [.poll] ∧
    nextTurn (hostTo .poll (accept 0x021 State.reset)) = .host ∧
    (hostTo .poll (accept 0x021 State.reset)).prog = [.poll] := by decide

/-- The last address that exists, and the first that does not. -/
theorem test_witness_HostMemoryWrite :
    nextTurn (hostTo (.memWr 0xFFF 1) State.reset) = .host ∧ 0xFFF < memBytes Config.standard ∧
    State.reset.status.busy = false ∧
    nextTurn (hostTo (.memWr 0x1000 1) State.reset) = .host ∧ memBytes Config.standard ≤ 0x1000 := by
  decide
/-- The same addresses, a settled byte and one that is not. -/
theorem test_witness_HostMemoryRead :
    nextTurn (hostTo (.memRd 0xFFF) State.reset) = .host ∧ 0xFFF < memBytes Config.standard ∧
    memBytes Config.standard ≤ 0x1000 ∧
    ¬ (toScatter.status.busy = true ∧ OutputByte toScatter 0) ∧
    settledByte toScatter 4 = some 0x4F ∧ settledByte toScatter 5 = none := by decide +kernel
/-- Two reads of a byte never written. -/
theorem test_witness_HostReadIdempotent :
    ∃ t u, step { State.reset with prog := [.memRd 9, .memRd 9] } = .next t ∧ nextTurn t = .host ∧
      step t = .next u := ⟨_, _, rfl, rfl, rfl⟩
/-- SCATTER 2 in flight: the last byte of container 1, and the byte after it. -/
theorem test_witness_HazardAccess :
    nextTurn (hostTo (.memRd 0x17F) (accept 0x222 toScatter)) = .host ∧
    (accept 0x222 toScatter).status.busy = true ∧ (accept 0x222 toScatter).lcmd = some 0x222 ∧
    0x17F < memBytes toScatter.cfg ∧ decode 0x222 = .ok (.scatter 2 2) ∧
    OutputByte (accept 0x222 toScatter) 0x17F ∧ ¬ OutputByte (accept 0x222 toScatter) 0x180 := by
  refine ⟨?_, ?_, ?_, ?_, rfl, ?_, ?_⟩ <;> decide +kernel

theorem test_witness_ResetClearsRegisters :
    nextTurn (inFlight .reset 0x222 toScatter) = .reset := by decide
/-- An abandoned SCATTER: a byte of the payload, and a byte of a container. -/
theorem test_witness_ResetKeepsMemory :
    nextTurn (inFlight .reset 0x222 toScatter) = .reset ∧
    ¬ OutputByte (inFlight .reset 0x222 toScatter) 4 ∧
    OutputByte (inFlight .reset 0x222 toScatter) 0x100 := by decide +kernel

theorem test_witness_StepRunsDecodedCommand :
    nextTurn (inFlight .engine 0x222 toScatter) = .engine ∧
    (inFlight .engine 0x222 toScatter).status.busy = true ∧
    (inFlight .engine 0x222 toScatter).lcmd = some 0x222 ∧ decode 0x222 = .ok (.scatter 2 2) :=
  ⟨rfl, rfl, rfl, rfl⟩

/-- A state in mid-command has the invariant. -/
theorem inv_inFlight (t : Turn) (w : Word) : (inFlight t w toPermute).Inv where
  busy_iff := by simp [inFlight, accept, Status.accepted]
  not_both := fun _ => rfl
  result_legal := List.mem_cons_self
  result_done := fun _ => ⟨rfl, rfl⟩
  ovr_since := fun h => by cases h
  masks_legal := .inl rfl
  mem_wf := show toPermute.mem.wf by decide
  stale_wf := List.Pairwise.nil
  mem_within := show toPermute.mem.Within Config.standard by decide
  stale_within := fun c h => by cases h
  apart := fun c h => by cases h

theorem test_witness_StepKeepsInvariant :
    (inFlight .engine 0x021 toPermute).Inv ∧
    ∃ t, step (inFlight .engine 0x021 toPermute) = .next t := ⟨inv_inFlight _ _, _, rfl⟩
theorem test_witness_LatchedCommandPresent : (inFlight .engine 0x224 toPermute).Inv := inv_inFlight _ _
theorem test_witness_BusyEngineCompletes :
    (inFlight .engine 0x224 toPermute).Inv ∧ nextTurn (inFlight .engine 0x224 toPermute) = .engine ∧
    (inFlight .engine 0x224 toPermute).status.busy = true ∧
    ∀ w i, (inFlight .engine 0x224 toPermute).lcmd = some w → decode w = .ok i →
      ∀ r ∈ inputRegionsOf (inFlight .engine 0x224 toPermute) i, ∀ a, r.Has a →
        ((inFlight .engine 0x224 toPermute).mem.read a).isSome := by
  refine ⟨inv_inFlight _ _, rfl, rfl, fun w i hw hi r hr a ha => ?_⟩
  cases hw
  cases hi
  have h0 : r = srcRegion toPermute := List.mem_singleton.1 hr
  subst h0
  have key : ∀ a < 4, (toPermute.mem.read a).isSome := by decide
  exact key a ha.2

/-- The state after a scattered "HELLO", with the output region of GA2. -/
def scattered : State :=
  match exec (.scatter 2 2) toScatter with
  | .next t => { t with dstAddr := 0x180, dstSize := 5 }
  | _ => toScatter

theorem test_witness_RoundTrip :
    ∃ t, exec (.scatter 2 2) toScatter = .next t ∧ t.status.err = 0 ∧
      Holds toScatter.mem (srcRegion toScatter) hello ∧
      scattered.cfg = t.cfg ∧ scattered.paddr = t.paddr ∧ scattered.psize = t.psize ∧
      (∀ (p : Fin 8) (a : Nat), p.val < 2 → (pieceRegion t p).Has a →
        scattered.mem.read a = t.mem.read a) ∧
      (dstRegion scattered).InMem scattered.cfg ∧
      (∀ p : Fin 8, p.val < 2 → ¬ (pieceRegion scattered p).Overlap (dstRegion scattered)) ∧
      hello.length ≤ scattered.dstSize.toNat := by
  cases h : exec (.scatter 2 2) toScatter with
  | next t =>
    have e : scattered = { t with dstAddr := 0x180, dstSize := 5 } := by
      unfold scattered
      rw [h]
    have s0 : statusAfter (exec (.scatter 2 2) toScatter) = some 2 := by decide +kernel
    have s1 : seenAfter (fun t => t.status.err) (exec (.scatter 2 2) toScatter) = some 0 := by
      decide +kernel
    rw [h] at s1
    refine ⟨t, rfl, Option.some.inj s1, ?_, by rw [e], by rw [e], by rw [e], ?_, ?_, ?_, ?_⟩
    · decide +kernel
    · intro p a _ _
      rw [e]
    · decide +kernel
    · decide +kernel
    · decide +kernel
  | fault f =>
    have s0 : (statusAfter (exec (.scatter 2 2) toScatter)).isSome := by decide +kernel
    rw [h] at s0
    cases s0
  | refused r =>
    have s0 : (statusAfter (exec (.scatter 2 2) toScatter)).isSome := by decide +kernel
    rw [h] at s0
    cases s0

/-- T8. -/
theorem test_witness_FlippedBitTravels :
    LegalCount 2 ∧ [helloPiece0, helloPiece1].length = 2 ∧
    (∀ x ∈ [helloPiece0, helloPiece1], x.length = 41) ∧ 1 < 2 ∧ 40 < 41 ∧ 0 < 8 := by decide

/-- A flipped bit of the framed "HELLO" with a zero tail of one byte. -/
def tampered (j b : Nat) : Bytes :=
  flipBit (frame Config.standard hello helloDigest ++ List.replicate 1 0) j b

/-- The stored length of a tampered buffer, and the payload it delimits. -/
def tamperedLen (j b : Nat) : Nat := fromLen8 .little (slice (tampered j b) 4 12)

/-- Each clause at the ends of its range: positions 3, 4, 11, 12, 75, 76, 80 and 81 (T1 to T8). -/
theorem test_witness_TamperVerdict :
    hello.length < 2 ^ 64 ∧ digestOf Config.standard hello = some helloDigest ∧ 81 < 76 + 5 + 1 ∧
    tamperedLen 4 1 = 7 ∧ 5 + 1 < tamperedLen 4 1 ∧ 5 + 1 < tamperedLen 11 7 ∧
    tamperedLen 4 0 = 4 ∧
    digestOf Config.standard (slice (tampered 4 0) 76 (76 + 4)) ≠ some helloDigest ∧
    (digestOf Config.standard (slice (tampered 4 0) 76 (76 + 4))).isSome ∧
    tamperedLen 76 0 = 5 ∧
    digestOf Config.standard (slice (tampered 76 0) 76 (76 + 5)) ≠ some helloDigest ∧
    (digestOf Config.standard (slice (tampered 80 1) 76 (76 + 5))).isSome := by decide +kernel

end Sys2Proof.Tests
end

section
/-!
The length field and the digest rendering: the values of LE64, BE64, LEN8 and HexDigest byte by byte
(spec/00_scope.md R14, R16; spec/30_encoding.md R77, R78).
-/

namespace Sys2Proof.Machine

/-! ### Bytes of a word (R14) -/

theorem toNat_extractByte {w : Nat} (v : BitVec w) (i : Nat) :
    (v.extractLsb' (8 * i) 8).toNat = v.toNat / 256 ^ i % 256 := by
  have hpow : 2 ^ (8 * i) = 256 ^ i := Nat.pow_mul 2 8 i
  rw [BitVec.extractLsb'_toNat, Nat.shiftRight_eq_div_pow, hpow]

theorem byteAt_le64 (v : Word) {i : Nat} (hi : i < 8) : byteAt (le64 v) i = v.extractLsb' (8 * i) 8 := by
  rw [byteAt_of_lt (by rwa [le64_length])]
  simp [le64]

theorem fromLE64_append (xs ys : Bytes) :
    fromLE64 (xs ++ ys) = fromLE64 xs + 256 ^ xs.length * fromLE64 ys := by
  induction xs with
  | nil => simp [fromLE64]
  | cons x xs ih =>
    have hcons (zs : Bytes) : fromLE64 (x :: zs) = x.toNat + 256 * fromLE64 zs := rfl
    rw [List.cons_append, hcons, hcons, ih, List.length_cons, Nat.pow_succ]
    ring

/-- The low `n` bytes of a word, least significant first, are its value modulo `256 ^ n`. -/
theorem fromLE64_lowBytes (v : Word) (n : Nat) :
    fromLE64 ((List.range n).map fun i => v.extractLsb' (8 * i) 8) = v.toNat % 256 ^ n := by
  induction n with
  | zero => simp [fromLE64, Nat.mod_one]
  | succ n ih =>
    have hlast : fromLE64 [v.extractLsb' (8 * n) 8] = v.toNat / 256 ^ n % 256 := toNat_extractByte v n
    rw [List.range_succ, List.map_append, List.map_singleton, fromLE64_append, ih, hlast,
      List.length_map, List.length_range, Nat.mod_pow_succ]

@[simp] theorem fromLE64_le64 (v : Word) : fromLE64 (le64 v) = v.toNat := by
  have hv : v.toNat < 256 ^ 8 := v.isLt
  exact (fromLE64_lowBytes v 8).trans (Nat.mod_eq_of_lt hv)

@[simp] theorem fromBE64_be64 (v : Word) : fromBE64 (be64 v) = v.toNat := by
  rw [fromBE64, be64, List.reverse_reverse, fromLE64_le64]

@[simp] theorem fromLen8_len8 (o : LenOrder) (v : Word) : fromLen8 o (len8 o v) = v.toNat := by
  cases o with
  | little => exact fromLE64_le64 v
  | big => exact fromBE64_be64 v

/-- Settles O15: the bytes are those of `toNat_extractByte`, and the inverses add them up again. -/
theorem lengthField : Obligations.LengthField := by
  intro v
  refine ⟨le64_length v, fun i hi => ?_, rfl, fromLE64_le64 v, fromBE64_be64 v, rfl, rfl,
    fun o => fromLen8_len8 o v⟩
  rw [byteAt_le64 v hi, toNat_extractByte]

/-! ### Digits of a digest (R78) -/

/-- The ASCII code of the first letter digit, 'a' or 'A'. -/
def letterCode : HexCase → Nat
  | .lower => 0x61
  | .upper => 0x41

/-- The ASCII code of the hexadecimal digit of a value below 16. -/
def digitCode (c : HexCase) (v : Nat) : Nat := if v ≤ 9 then 0x30 + v else letterCode c + (v - 10)

theorem toNat_hexChar (c : HexCase) (v : BitVec 4) : (hexChar c v).toNat = digitCode c v.toNat := by
  unfold hexChar digitCode
  split
  next h => bv_omega
  next h =>
    cases c with
    | lower => simp only [letterCode]; bv_omega
    | upper => simp only [letterCode]; bv_omega

theorem toNat_highNibble (b : Byte) : (b.extractLsb' 4 4).toNat = b.toNat / 16 := by
  rw [BitVec.extractLsb'_toNat, Nat.shiftRight_eq_div_pow]
  omega

theorem toNat_lowNibble (b : Byte) : (b.extractLsb' 0 4).toNat = b.toNat % 16 := by
  rw [BitVec.extractLsb'_toNat, Nat.shiftRight_zero]

theorem toNat_digestByte (d : BitVec 256) (k : Nat) :
    (digestByte d k).toNat = d.toNat / 256 ^ (31 - k) % 256 :=
  toNat_extractByte d (31 - k)

/-- A string made of two bytes per list entry has entry k's bytes at 2k and 2k + 1. -/
theorem byteAt_flatMap_pair {α : Type} (f g : α → Byte) (l : List α) (k : Nat) (hk : k < l.length) :
    byteAt (l.flatMap fun x => [f x, g x]) (2 * k) = f l[k] ∧
    byteAt (l.flatMap fun x => [f x, g x]) (2 * k + 1) = g l[k] := by
  induction l generalizing k with
  | nil => cases hk
  | cons x l ih =>
    cases k with
    | zero => exact ⟨rfl, rfl⟩
    | succ k => exact ih k (Nat.lt_of_succ_lt_succ hk)

theorem byteAt_hexDigest (c : HexCase) (d : BitVec 256) {k : Nat} (hk : k < 32) :
    byteAt (hexDigest c d) (2 * k) = hexChar c ((digestByte d k).extractLsb' 4 4) ∧
    byteAt (hexDigest c d) (2 * k + 1) = hexChar c ((digestByte d k).extractLsb' 0 4) := by
  have hlen : k < (List.range 32).length := by rwa [List.length_range]
  have hpair := byteAt_flatMap_pair (fun j => hexChar c ((digestByte d j).extractLsb' 4 4))
    (fun j => hexChar c ((digestByte d j).extractLsb' 0 4)) (List.range 32) k hlen
  rwa [List.getElem_range] at hpair

theorem toNat_byteAt_hexDigest (c : HexCase) (d : BitVec 256) {k : Nat} (hk : k < 32) :
    (byteAt (hexDigest c d) (2 * k)).toNat = digitCode c (d.toNat / 256 ^ (31 - k) % 256 / 16) ∧
    (byteAt (hexDigest c d) (2 * k + 1)).toNat = digitCode c (d.toNat / 256 ^ (31 - k) % 256 % 16) := by
  obtain ⟨hhigh, hlow⟩ := byteAt_hexDigest c d hk
  rw [hhigh, hlow, toNat_hexChar, toNat_hexChar, toNat_highNibble, toNat_lowNibble, toNat_digestByte]
  exact ⟨rfl, rfl⟩

/-- Settles O16: digest byte k gives the characters of its two nibbles. -/
theorem hexRendering : Obligations.HexRendering := by
  intro c d
  refine ⟨hexDigest_length c d, fun k hk => ?_⟩
  cases c with
  | lower => exact toNat_byteAt_hexDigest .lower d hk
  | upper => exact toNat_byteAt_hexDigest .upper d hk

end Sys2Proof.Machine
end

section
/-!
The invariant of the state: the result a completion reports, and every step from a state that has the
invariant (spec/10_state.md R26, R31, R36 to R39; spec/60_exceptions.md R180, R181).
-/

namespace Sys2Proof.Machine

/-! ### What a completion reports (R38, R184) -/

/-- The results a command can report: success, the refusal of its piece count, and what it raises. -/
def reportedResults (i : Instr) : List (ResultKind × BitVec 8) :=
  (.success, 0) :: (.invalidPieceCount, 0) :: raisedResults i

/-- Writing outputs touches neither STATUS, nor LCMD, nor MASKS, nor what no command writes. -/
theorem Outputs.kept {i : Instr} {s u : State} (h : Outputs s i u) :
    KeptByCommand s u ∧ u.status = s.status ∧ u.masks = s.masks := by
  have hpieces (n : Nat) (xs : List Bytes) : KeptByCommand s (storePieces n xs s) ∧
      (storePieces n xs s).status = s.status ∧ (storePieces n xs s).masks = s.masks := by
    obtain ⟨hcfg, hstatus, hsrc, hlen, hdst, -, hmasks, hpaddr, -, hdraws, hreplies, hprog, hturns⟩ :=
      storePieces_kept n xs s
    exact ⟨⟨hcfg, hsrc, hlen, hdst, hpaddr, hdraws, hreplies, hprog, hturns⟩, hstatus, hmasks⟩
  cases h with
  | none n => simp [KeptByCommand]
  | scatter n pl d => exact hpieces _ _
  | permute n f => exact hpieces _ _
  | gather n xs pl => simp [KeptByCommand]
  | unpermute n xs => simp [KeptByCommand]

/-- A command that answers a next state has completed with one of the results R183 gives it. -/
theorem exec_reports {i : Instr} {s t : State} (h : exec i s = .next t) :
    ∃ k info, (k, info) ∈ reportedResults i ∧ t.status = s.status.completed k info ∧ t.lcmd = none := by
  rcases exec_next i s t h with ⟨-, rfl⟩ | ⟨-, u, hu, rfl⟩ | ⟨-, k, info, hk, rfl⟩
  · exact ⟨.invalidPieceCount, 0, by simp [reportedResults], rfl, rfl⟩
  · refine ⟨.success, 0, by simp [reportedResults], ?_, rfl⟩
    obtain ⟨-, hstatus, -⟩ := hu.kept
    rw [finish_status, hstatus, loadMasks_status]
  · exact ⟨k, info, by simp [reportedResults, hk], rfl, rfl⟩

/-- R180, R181: every result of a command is a legal pair, and none is IllegalCommand. -/
theorem reportedResults_legal {i : Instr} {k : ResultKind} {info : BitVec 8}
    (h : (k, info) ∈ reportedResults i) : (k.code, info) ∈ legalResults ∧ k ≠ .illegalCommand := by
  have key : ∀ r ∈ reportedResults i, (r.1.code, r.2) ∈ legalResults ∧ r.1 ≠ .illegalCommand := by
    cases i <;> simp only [reportedResults, raisedResults] <;> decide
  exact key _ h

/-! ### STATUS and LCMD -/

/-- The part of the invariant that STATUS and LCMD have (R26, R36 to R39, R180, R181). -/
structure StatusSound (st : Status) (lcmd : Option Word) : Prop where
  busy_iff : st.busy = true ↔ lcmd.isSome = true
  not_both : st.busy = true → st.done = false
  result_legal : (st.err, st.info) ∈ legalResults
  result_done : st.done = false → st.err = 0 ∧ st.info = 0
  ovr_since : st.ovr = true → st.busy = true ∨ st.done = true

theorem statusSound_reset : StatusSound Status.reset none := by
  constructor <;> decide

theorem statusSound_accepted (v : Word) : StatusSound Status.accepted (some v) where
  busy_iff := by simp [Status.accepted]
  not_both _ := rfl
  result_legal := by decide
  result_done _ := ⟨rfl, rfl⟩
  ovr_since _ := .inl rfl

theorem statusSound_completed (st : Status) {k : ResultKind} {info : BitVec 8}
    (h : (k.code, info) ∈ legalResults) : StatusSound (st.completed k info) none where
  busy_iff := by simp
  not_both hb := by simp at hb
  result_legal := h
  result_done hd := by simp at hd
  ovr_since _ := .inr rfl

theorem StatusSound.overrun {st : Status} {lcmd : Option Word} (h : StatusSound st lcmd)
    (hb : st.busy = true) : StatusSound st.overrun lcmd where
  busy_iff := h.busy_iff
  not_both := h.not_both
  result_legal := h.result_legal
  result_done := h.result_done
  ovr_since _ := .inl hb

/-! ### MASKS and buffer memory -/

/-- MASKS is 0 or the mask set of a legal piece count (R31). -/
def MasksLegal (w : Word) : Prop := w = 0 ∨ ∃ n, LegalCount n ∧ w = packMasks (genMasks n)

theorem masksLegal_loadMasks {n : Nat} (hn : LegalCount n) (s : State) : MasksLegal (loadMasks n s).masks :=
  .inr ⟨n, hn, rfl⟩

/-- The invariant by what it speaks of: STATUS with LCMD, MASKS, and buffer memory. -/
theorem inv_iff (s : State) :
    s.Inv ↔ StatusSound s.status s.lcmd ∧ MasksLegal s.masks ∧ MemSound s := by
  constructor
  · intro h
    exact ⟨⟨h.busy_iff, h.not_both, h.result_legal, h.result_done, h.ovr_since⟩, h.masks_legal,
      ⟨h.mem_wf, h.stale_wf, h.mem_within, h.stale_within, h.apart⟩⟩
  · rintro ⟨hs, hm, hmem⟩
    exact ⟨hs.busy_iff, hs.not_both, hs.result_legal, hs.result_done, hs.ovr_since, hm,
      hmem.mem_wf, hmem.stale_wf, hmem.mem_within, hmem.stale_within, hmem.apart⟩

/-- Soundness of memory is about memory and the parameters only. -/
theorem MemSound.congr {s t : State} (h : MemSound s) (hm : t.mem = s.mem) (hst : t.stale = s.stale)
    (hc : t.cfg = s.cfg) : MemSound t := by
  obtain ⟨h1, h2, h3, h4, h5⟩ := h
  constructor <;> simpa only [hm, hst, hc]

theorem MemSound.finish {s : State} (h : MemSound s) (k : ResultKind) (info : BitVec 8) :
    MemSound (finish k info s) := h.congr rfl rfl rfl

theorem MemSound.loadMasks {s : State} (h : MemSound s) (n : Nat) : MemSound (loadMasks n s) :=
  h.congr rfl rfl rfl

theorem MemSound.reply {s : State} (h : MemSound s) (r : Reply) : MemSound (reply r s) :=
  h.congr rfl rfl rfl

theorem Region.InMem.mono {c : Config} {base len len' : Nat}
    (h : Region.InMem c { base := base, len := len }) (hle : len' ≤ len) :
    Region.InMem c { base := base, len := len' } := by
  simp only [Region.InMem] at h ⊢
  omega

/-- Pieces of the length that the containers were checked for go into memory. -/
theorem pieceTarget_permute_inMem {n : Nat} {f : Bytes} {s : State} (hr : ContainersReady n f.length s)
    (p : Fin 8) (hp : p.val < n) : (pieceTarget (permute n f) s p).InMem s.cfg := by
  obtain ⟨-, hin, hfit, -, -⟩ := hr
  unfold pieceTarget
  rw [permute_getD hp, permutePiece_length]
  exact (hin p hp).mono (hfit p hp)

theorem frame_length_of_holds {s : State} {pl : Bytes} (h : Holds s.mem (srcRegion s) pl) (c : Config)
    (d : BitVec 256) : (frame c pl d).length = hdrSize + s.srcLen.toNat := by
  rw [frame_length, h.1, srcRegion]

theorem slice_length_le (bs : Bytes) (a b : Nat) : (slice bs a b).length ≤ b - a := by
  simp only [slice, List.length_take]
  omega

theorem trimmed_length_le (c : Config) (r : Bytes) : (trimmed c r).length ≤ storedLen c r := by
  have h := slice_length_le r hdrSize (hdrSize + storedLen c r)
  rwa [Nat.add_sub_cancel_left] at h

/-- Every output a command writes goes into memory, which stays sound. -/
theorem Outputs.memSound {i : Instr} {s u : State} (h : Outputs s i u) (hs : MemSound s) : MemSound u := by
  cases h with
  | none n => exact hs
  | scatter n pl d hr hpl hd =>
    rw [← frame_length_of_holds hpl s.cfg d] at hr
    exact storePieces_sound hs _ _ (pieceTarget_permute_inMem hr)
  | permute n f hr hf =>
    have hlen : f.length = s.srcLen.toNat := hf.1
    rw [← hlen] at hr
    exact storePieces_sound hs _ _ (pieceTarget_permute_inMem hr)
  | gather n xs pl hr hxs hlen hv hfit =>
    obtain ⟨-, hdst, -, -⟩ := hr
    obtain ⟨-, rfl, -⟩ := (verify_ok_iff _ _ _).1 hv
    exact storeOutput_sound hs _ (hdst.mono ((trimmed_length_le _ _).trans hfit))
  | unpermute n xs hr hfit hxs =>
    obtain ⟨-, hdst, -, -⟩ := hr
    exact storeOutput_sound hs _ (hdst.mono (by rwa [unpermute_length]))

/-- Settling the byte that the host reads keeps memory sound: it is listed nowhere yet. -/
theorem peekByte_sound {s : State} (h : MemSound s) {a : Nat} (ha : a < memBytes s.cfg) :
    MemSound (peekByte a s).2 := by
  rcases peekByte_spec a s with ⟨-, hs⟩ | ⟨hnone, -, hs⟩
  · rwa [hs]
  · rw [hs]
    obtain ⟨hmem, -⟩ := Option.or_eq_none_iff.1 hnone
    refine ⟨h.mem_wf, Memory.wf_write h.stale_wf _ _, h.mem_within,
      Memory.within_write h.stale_within ha _, (Memory.apart_iff _ _).2 fun x hx => ?_⟩
    rw [Memory.read_write] at hx
    split at hx
    · rename_i hxa
      rwa [hxa]
    · exact (Memory.apart_iff _ _).1 h.apart x hx

theorem resetInput_sound {s : State} (h : MemSound s) : MemSound (resetInput s) where
  mem_wf := Memory.wf_nil
  stale_wf := Memory.wf_foldl_forget _ (Memory.wf_over _ h.stale_wf)
  mem_within := by simp [Memory.Within]
  stale_within := Memory.within_foldl_forget _ (Memory.within_over h.mem_within h.stale_within)
  apart _ _ := rfl

/-! ### Every step -/

theorem exec_keeps_inv {i : Instr} {s t : State} (hs : s.Inv) (h : exec i s = .next t) : t.Inv := by
  obtain ⟨-, hmasks, hmem⟩ := (inv_iff s).1 hs
  have hstatus : StatusSound t.status t.lcmd := by
    obtain ⟨k, info, hk, hst, hl⟩ := exec_reports h
    rw [hst, hl]
    exact statusSound_completed _ (reportedResults_legal hk).1
  refine (inv_iff t).2 ⟨hstatus, ?_⟩
  rcases exec_next i s t h with ⟨-, rfl⟩ | ⟨hn, u, hu, rfl⟩ | ⟨hn, k, info, -, rfl⟩
  · exact ⟨hmasks, hmem.finish _ _⟩
  · obtain ⟨-, -, hmu⟩ := hu.kept
    refine ⟨?_, (hu.memSound (hmem.loadMasks _)).finish _ _⟩
    rw [finish_masks, hmu]
    exact masksLegal_loadMasks hn s
  · exact ⟨masksLegal_loadMasks hn s, (hmem.loadMasks _).finish _ _⟩

/-- An illegal word completes with a legal result and touches neither MASKS nor memory (R73). -/
theorem finish_illegalCommand_keeps_inv {s : State} (hs : s.Inv) : (finish .illegalCommand 0 s).Inv := by
  obtain ⟨-, hmasks, hmem⟩ := (inv_iff s).1 hs
  exact (inv_iff _).2 ⟨statusSound_completed _ (by decide), hmasks, hmem.finish _ _⟩

theorem engineTurn_keeps_inv {s t : State} (hs : s.Inv) (h : engineTurn s = .next t) : t.Inv := by
  rcases engineTurn_next s t h with ⟨-, rfl⟩ | ⟨-, w, -, ⟨i, -, hi⟩ | ⟨e, -, rfl⟩⟩
  · exact hs
  · exact exec_keeps_inv hs hi
  · exact finish_illegalCommand_keeps_inv hs

/-- A register write touches neither MASKS nor memory, and STATUS with LCMD only by an acceptance. -/
theorem writeReg_keeps_inv {s : State} (hs : s.Inv) (v : Word) (r : Reg) : (writeReg v s r).Inv := by
  obtain ⟨hstatus, hmasks, hmem⟩ := (inv_iff s).1 hs
  cases r with
  | cmd => exact (inv_iff _).2 ⟨statusSound_accepted v, hmasks, hmem.congr rfl rfl rfl⟩
  | _ => exact (inv_iff _).2 ⟨hstatus, hmasks, hmem.congr rfl rfl rfl⟩

theorem HostEffect.keeps_inv {s t : State} {op : HostOp} (h : HostEffect s op t) (hs : s.Inv) : t.Inv := by
  obtain ⟨hstatus, hmasks, hmem⟩ := (inv_iff s).1 hs
  cases h with
  | regRead slot => exact (inv_iff _).2 ⟨hstatus, hmasks, hmem.reply _⟩
  | overrun slot v hb => exact (inv_iff _).2 ⟨hstatus.overrun hb, hmasks, hmem.congr rfl rfl rfl⟩
  | regWrite slot v hb => exact writeReg_keeps_inv hs v _
  | memRd a ha hz =>
    have hrest : (peekByte a s).2.status = s.status ∧ (peekByte a s).2.lcmd = s.lcmd ∧
        (peekByte a s).2.masks = s.masks := by
      rcases peekByte_spec a s with ⟨-, h⟩ | ⟨-, -, h⟩ <;> rw [h] <;> exact ⟨rfl, rfl, rfl⟩
    obtain ⟨hst, hl, hma⟩ := hrest
    refine (inv_iff _).2 ⟨?_, ?_, (peekByte_sound hmem ha).reply _⟩
    · rwa [reply_status, reply_lcmd, hst, hl]
    · rwa [reply_masks, hma]
  | memWr a b ha hb =>
    exact (inv_iff _).2 ⟨hstatus, hmasks, writeRegion_sound hmem a [b] (.inr (by simpa using ha))⟩
  | polling hb => exact (inv_iff _).2 ⟨hstatus, hmasks, hmem.congr rfl rfl rfl⟩
  | polled hb => exact (inv_iff _).2 ⟨hstatus, hmasks, hmem.reply _⟩

/-- The host's program and the list of turns are no part of the invariant. -/
theorem State.Inv.setAgents {s : State} (hs : s.Inv) (ps : List HostOp) (ts : List Turn) :
    State.Inv { s with prog := ps, turns := ts } := by
  obtain ⟨hstatus, hmasks, hmem⟩ := (inv_iff s).1 hs
  exact (inv_iff _).2 ⟨hstatus, hmasks, hmem.congr rfl rfl rfl⟩

theorem hostTurn_keeps_inv {s t : State} (hs : s.Inv) (h : hostTurn s = .next t) : t.Inv := by
  rcases hostTurn_next s t h with ⟨-, rfl⟩ | ⟨op, rest, -, heff⟩
  · exact hs
  · exact heff.keeps_inv (hs.setAgents rest s.turns)

theorem resetInput_keeps_inv {s : State} (hs : s.Inv) : (resetInput s).Inv := by
  obtain ⟨-, -, hmem⟩ := (inv_iff s).1 hs
  exact (inv_iff _).2 ⟨statusSound_reset, .inl rfl, resetInput_sound hmem⟩

/-- Settles O55: each of the three agents keeps the invariant. -/
theorem stepKeepsInvariant : Obligations.StepKeepsInvariant := by
  intro s t hs h
  have htook : (tookTurn s).Inv := hs.setAgents s.prog s.turns.tail
  rcases step_next s t h with ⟨-, hhost⟩ | ⟨-, hengine⟩ | ⟨-, rfl⟩
  · exact hostTurn_keeps_inv htook hhost
  · exact engineTurn_keeps_inv htook hengine
  · exact resetInput_keeps_inv htook

/-- Settles O53: nothing is busy, no result is reported, MASKS is 0 and memory lists no byte. -/
theorem resetInvariant : Obligations.ResetInvariant := by
  have hreset (c : Config) : (State.resetWith c).Inv := by
    refine (inv_iff _).2 ⟨statusSound_reset, .inl rfl, Memory.wf_nil, Memory.wf_nil, ?_, ?_, ?_⟩
    · simp [State.resetWith, Memory.Within]
    · simp [State.resetWith, Memory.Within]
    · exact fun _ _ => rfl
  exact ⟨hreset, hreset Config.standard⟩

/-! ### How a step can stop -/

/-- The host's transactions go on, or stop the run with a fault of the host's own (R50, R204). -/
theorem hostOp_outcome (s : State) (op : HostOp) :
    (∃ t, hostOp s op = .next t) ∨ ∃ f, hostOp s op = .fault f ∧ f ≠ .noLatchedCommand := by
  cases op with
  | regRead slot => exact .inl ⟨_, rfl⟩
  | regWrite slot v => exact .inl ⟨_, rfl⟩
  | memRd a =>
    simp only [hostOp, hostMemRd]
    split
    · exact .inr ⟨_, rfl, Fault.noConfusion⟩
    · split
      · exact .inr ⟨_, rfl, Fault.noConfusion⟩
      · exact .inl ⟨_, rfl⟩
  | memWr a b =>
    simp only [hostOp, hostMemWr]
    split
    · exact .inr ⟨_, rfl, Fault.noConfusion⟩
    · split
      · exact .inr ⟨_, rfl, Fault.noConfusion⟩
      · exact .inl ⟨_, rfl⟩
  | poll =>
    simp only [hostOp]
    split
    · exact .inl ⟨_, rfl⟩
    · exact .inl ⟨_, rfl⟩

theorem hostTurn_outcome (s : State) :
    (∃ t, hostTurn s = .next t) ∨ ∃ f, hostTurn s = .fault f ∧ f ≠ .noLatchedCommand := by
  unfold hostTurn
  split
  · exact .inl ⟨s, rfl⟩
  · exact hostOp_outcome _ _

/-- A command completes, or reads a byte of its input regions that holds no value (R52). -/
theorem exec_outcome (i : Instr) (s : State) :
    (∃ t, exec i s = .next t) ∨ ∃ a, exec i s = .fault (.unwrittenRead a) ∧
      s.mem.read a = none ∧ ∃ r ∈ inputRegionsOf s i, r.Has a := by
  cases h : exec i s with
  | next t => exact .inl ⟨t, rfl⟩
  | fault f =>
    obtain ⟨r, hr, a, ha, hm, rfl⟩ := exec_fault i s f h
    exact .inr ⟨a, rfl, hm, r, hr, ha⟩
  | refused r => exact absurd h (exec_not_refused i s r)

/-- BUSY without LCMD aside, the engine's turn goes on or stops at an unwritten input byte. -/
theorem engineTurn_outcome {s : State} (hs : s.Inv) :
    (∃ t, engineTurn s = .next t) ∨ ∃ a, engineTurn s = .fault (.unwrittenRead a) := by
  cases hb : s.status.busy with
  | false => exact .inl ⟨s, engineTurn_idle hb⟩
  | true =>
    obtain ⟨w, hw⟩ := Option.isSome_iff_exists.1 (hs.busy_iff.1 hb)
    cases hd : decode w with
    | error e => exact .inl ⟨_, engineTurn_illegal hb hw hd⟩
    | ok i =>
      rw [engineTurn_legal hb hw hd]
      exact (exec_outcome i s).imp_right fun ⟨a, ha, _⟩ => ⟨a, ha⟩

/-- Settles O56: the invariant gives a busy engine its latched word. -/
theorem latchedCommandPresent : Obligations.LatchedCommandPresent := by
  intro s hs
  have htook : (tookTurn s).Inv := hs.setAgents s.prog s.turns.tail
  cases hn : nextTurn s with
  | host =>
    rw [step_host hn]
    rcases hostTurn_outcome (tookTurn s) with ⟨t, ht⟩ | ⟨f, hf, hne⟩
    · simp [ht]
    · simp [hf, hne]
  | engine =>
    rw [step_engine hn]
    rcases engineTurn_outcome htook with ⟨t, ht⟩ | ⟨a, ha⟩
    · simp [ht]
    · simp [ha]
  | reset => simp [step_reset hn]

/-! ### The engine's step -/

/-- Settles O54: the engine's turn with a legal word latched is `exec` of its command. -/
theorem stepRunsDecodedCommand : Obligations.StepRunsDecodedCommand := by
  intro s w i hn hb hw hi
  rw [step_engine hn]
  exact engineTurn_legal hb hw hi

theorem step_illegal {s : State} {w : Word} {e : DecodeError} (hn : nextTurn s = .engine)
    (hb : s.status.busy = true) (hw : s.lcmd = some w) (he : decode w = .error e) :
    step s = .next (finish .illegalCommand 0 (tookTurn s)) := by
  rw [step_engine hn]
  exact engineTurn_illegal hb hw he

theorem inputRegionsOf_tookTurn (s : State) (i : Instr) :
    inputRegionsOf (tookTurn s) i = inputRegionsOf s i := by
  cases i <;> rfl

/-- Settles O57: with its input written, the latched word has no fault left to stop it. -/
theorem busyEngineCompletes : Obligations.BusyEngineCompletes := by
  intro s hs hn hb hinput
  obtain ⟨w, hw⟩ := Option.isSome_iff_exists.1 (hs.busy_iff.1 hb)
  cases hd : decode w with
  | error e => exact ⟨_, step_illegal hn hb hw hd, rfl, rfl, rfl⟩
  | ok i =>
    rw [stepRunsDecodedCommand s w i hn hb hw hd]
    rcases exec_outcome i (tookTurn s) with ⟨t, ht⟩ | ⟨a, -, hm, r, hr, ha⟩
    · obtain ⟨k, info, -, hst, hl⟩ := exec_reports ht
      exact ⟨t, ht, by rw [hst, completed_busy], by rw [hst, completed_done], hl⟩
    · rw [inputRegionsOf_tookTurn] at hr
      have hsome : (s.mem.read a).isSome := hinput w i hw hd r hr a ha
      rw [tookTurn_mem] at hm
      simp [hm] at hsome

end Sys2Proof.Machine
end

section
/-!
The masks bit by bit, and what they make of the permutation: which bit of which byte each output bit is
(spec/40_maskgen.md R100, R101; spec/41_scatter.md R123; spec/42_gather.md R151).
-/

namespace Sys2Proof.Machine

/-! ### Masks (R100, R101) -/

theorem byteAt_modify (bs : Bytes) (f : Byte → Byte) (i m : Nat) (hm : m < bs.length) :
    byteAt (bs.modify i f) m = if i = m then f (byteAt bs m) else byteAt bs m := by
  have hm' : m < (bs.modify i f).length := by rwa [List.length_modify]
  rw [byteAt_of_lt hm', byteAt_of_lt hm, List.getElem_modify]

/-- The accumulators of GenMasks(N) after the first `k` bit positions. -/
def maskAccum (n k : Nat) : List Byte :=
  (List.range k).foldl (fun acc i => acc.modify (i % n) (· ||| ((1 : Byte) <<< i))) (List.replicate n 0)

theorem maskAccum_succ (n k : Nat) :
    maskAccum n (k + 1) = (maskAccum n k).modify (k % n) (· ||| ((1 : Byte) <<< k)) := by
  simp [maskAccum, List.range_succ]

theorem maskAccum_length (n k : Nat) : (maskAccum n k).length = n := by
  induction k with
  | zero => simp [maskAccum]
  | succ k ih => rw [maskAccum_succ, List.length_modify, ih]

theorem getLsbD_one_shiftLeft (k b : Nat) (hb : b < 8) : ((1 : Byte) <<< k).getLsbD b = decide (b = k) := by
  have hone : (1 : Byte) = 1#8 := rfl
  rw [BitVec.getLsbD_shiftLeft, hone, BitVec.getLsbD_one]
  grind

theorem maskAccum_getLsbD {n k m b : Nat} (hm : m < n) (hb : b < 8) :
    (byteAt (maskAccum n k) m).getLsbD b = decide (b < k ∧ b % n = m) := by
  induction k with
  | zero =>
    have hzero : byteAt (maskAccum n 0) m = 0 := byteAt_replicate_zero n m
    simp [hzero]
  | succ k ih =>
    rw [maskAccum_succ, byteAt_modify _ _ _ _ (by rwa [maskAccum_length])]
    split
    · rw [BitVec.getLsbD_or, ih, getLsbD_one_shiftLeft k b hb]
      grind
    · rw [ih]
      grind

/-- R101: bit b of MASK[m] is 1 exactly when b mod N = m. -/
theorem genMasks_getLsbD {n m b : Nat} (hm : m < n) (hb : b < 8) :
    (byteAt (genMasks n) m).getLsbD b = decide (b % n = m) := by
  have h : (byteAt (genMasks n) m).getLsbD b = decide (b < 8 ∧ b % n = m) := maskAccum_getLsbD hm hb
  rw [h, decide_eq_decide]
  exact and_iff_right hb

theorem genMasks_length (n : Nat) : (genMasks n).length = n := maskAccum_length n 8

/-- The first `k` bytes of a list packed into a word, as `packMasks` packs eight. -/
def packBytes (bs : List Byte) (k : Nat) : Word :=
  (List.range k).foldl (fun acc m => acc ||| ((byteAt bs m).setWidth 64 <<< (8 * m))) 0

theorem packBytes_succ (bs : List Byte) (k : Nat) :
    packBytes bs (k + 1) = packBytes bs k ||| ((byteAt bs k).setWidth 64 <<< (8 * k)) := by
  simp [packBytes, List.range_succ]

/-- Bit b of a byte placed at byte k of a word shows at byte k alone. -/
theorem placeByte_getLsbD (x : Byte) (k : Nat) {m b : Nat} (hm : m < 8) (hb : b < 8) :
    ((x.setWidth 64 <<< (8 * k) : Word)).getLsbD (8 * m + b) = (decide (m = k) && x.getLsbD b) := by
  rw [BitVec.getLsbD_shiftLeft, BitVec.getLsbD_setWidth]
  rcases Nat.lt_trichotomy m k with h | rfl | h
  · have h1 : 8 * m + b < 8 * k := by omega
    simp [h1, Nat.ne_of_lt h]
  · have h1 : 8 * m + b < 64 := by omega
    have h2 : b < 64 := by omega
    simp [h1, h2]
  · have h1 : x.getLsbD (8 * m + b - 8 * k) = false := BitVec.getLsbD_of_ge x _ (by omega)
    simp [h1, Nat.ne_of_gt h]

theorem packBytes_getLsbD (bs : List Byte) (k : Nat) {m b : Nat} (hm : m < 8) (hb : b < 8) :
    (packBytes bs k).getLsbD (8 * m + b) = (decide (m < k) && (byteAt bs m).getLsbD b) := by
  induction k with
  | zero => simp [packBytes]
  | succ k ih =>
    rw [packBytes_succ, BitVec.getLsbD_or, ih, placeByte_getLsbD _ k hm hb]
    grind

theorem packMasks_getLsbD (masks : List Byte) {m b : Nat} (hm : m < 8) (hb : b < 8) :
    (packMasks masks).getLsbD (8 * m + b) = (byteAt masks m).getLsbD b := by
  have h : (packMasks masks).getLsbD (8 * m + b) = (decide (m < 8) && (byteAt masks m).getLsbD b) :=
    packBytes_getLsbD masks 8 hm hb
  rw [h, decide_eq_true hm, Bool.true_and]

/-- R31, R101: MASKS as `loadMasks` leaves it is the mask set of n. -/
theorem masksFor_of_masks {n : Nat} {t : State} (h : t.masks = packMasks (genMasks n)) : MasksFor n t := by
  intro m hm b hb
  rw [h, packMasks_getLsbD _ hm hb]
  by_cases hmn : m < n
  · simp [genMasks_getLsbD hmn hb, hmn]
  · rw [byteAt_of_le (by rw [genMasks_length]; omega)]
    simp [hmn]

/-! ### Bits of the permutation (R122, R123, R150, R151) -/

/-- An OR of masked bytes has, at bit b, the bit of the one byte whose mask owns b. -/
theorem orOver_masks_getLsbD {n : Nat} (hn : 0 < n) (e : Nat → Byte) {b : Nat} (hb : b < 8) :
    (orOver n fun m => byteAt (genMasks n) m &&& e m).getLsbD b = (e (b % n)).getLsbD b := by
  rw [Bool.eq_iff_iff, orOver_getLsbD]
  constructor
  · rintro ⟨m, hm, h⟩
    rw [BitVec.getLsbD_and, genMasks_getLsbD hm hb, Bool.and_eq_true, decide_eq_true_iff] at h
    obtain ⟨rfl, h⟩ := h
    exact h
  · intro h
    have hm := Nat.mod_lt b hn
    exact ⟨b % n, hm, by simp [genMasks_getLsbD hm hb, h]⟩

/-- R123: bit b of output byte p is bit b of row (p - (b mod N)) mod N. -/
theorem permGroup_getLsbD {n : Nat} (hn : 0 < n) (rows : Nat → Byte) (p : Nat) {b : Nat} (hb : b < 8) :
    (permGroup n (genMasks n) rows p).getLsbD b = (rows ((p + n - b % n) % n)).getLsbD b :=
  orOver_masks_getLsbD hn (fun m => rows ((p + n - m) % n)) hb

/-- R151: bit b of row r of column i is bit b of byte i of piece (r + (b mod N)) mod N. -/
theorem unpermCol_getLsbD {n : Nat} (hn : 0 < n) (pieces : List Bytes) (i r : Nat) {b : Nat} (hb : b < 8) :
    (unpermCol n (genMasks n) pieces i r).getLsbD b
      = (byteAt (pieces.getD ((r + b % n) % n) []) i).getLsbD b :=
  orOver_masks_getLsbD hn (fun m => byteAt (pieces.getD ((r + m) % n) []) i) hb

end Sys2Proof.Machine
end

section
/-!
What a command that passes its checks writes: the pieces of a byte string in the containers, or some bytes
at DST_ADDR, each with its length, and nothing else (spec/41_scatter.md R126, R127; spec/42_gather.md R156,
R157); and how a command completes otherwise (spec/60_exceptions.md R183 steps 2 and 3).
-/

namespace Sys2Proof.Machine

/-! ### The pieces written (R126, R127) -/

/-- The pieces of `f` stand in the containers, PSIZE holds their length, and no other PSIZE and no other
byte of memory differs. -/
structure PiecesWritten (n : Nat) (f : Bytes) (s t : State) : Prop where
  psize_used : ∀ p : Fin 8, p.val < n → (t.psize[p]).toNat = pieceLen n f.length
  psize_unused : ∀ p : Fin 8, n ≤ p.val → t.psize[p] = s.psize[p]
  bits : ∀ p : Fin 8, p.val < n → ∀ g < pieceLen n f.length,
    ∃ y, t.mem.read ((s.paddr[p]).toNat + g) = some y ∧
      ∀ b < 8, y.getLsbD b = (byteAt f (g * n + (p.val + n - b % n) % n)).getLsbD b
  outside : KeptOutside (filledRegions n (pieceLen n f.length) s) s t

theorem pieceTarget_permute {n : Nat} (f : Bytes) (s : State) {p : Fin 8} (hp : p.val < n) :
    pieceTarget (permute n f) s p = { base := (s.paddr[p]).toNat, len := pieceLen n f.length } := by
  rw [pieceTarget, permute_getD hp, permutePiece_length]

/-- No address is in two pieces' targets, since the containers do not overlap and hold them. -/
theorem pieceTargets_apart {n : Nat} {f : Bytes} {s : State} (hr : ContainersReady n f.length s)
    {p q : Fin 8} (hp : p.val < n) (hq : q.val < n) (hpq : q ≠ p) {a : Nat}
    (ha : (pieceTarget (permute n f) s p).Has a) : ¬ (pieceTarget (permute n f) s q).Has a := by
  obtain ⟨-, -, hfit, -, hapart⟩ := hr
  have hne : q.val ≠ p.val := fun h => hpq (Fin.ext h)
  have hfp := hfit p hp
  have hfq := hfit q hq
  rw [pieceTarget_permute f s hp] at ha
  rw [pieceTarget_permute f s hq]
  rcases Nat.lt_or_gt_of_ne hne with h | h
  · have := hapart q p h hp
    simp only [Region.Overlap, Region.Has, pieceRegion] at *
    omega
  · have := hapart p q h hq
    simp only [Region.Overlap, Region.Has, pieceRegion] at *
    omega

/-- R126, R127: what writing the pieces of `f` to containers that pass the checks makes. -/
theorem storePieces_written {n : Nat} {f : Bytes} {s : State} (hn : LegalCount n)
    (hr : ContainersReady n f.length s) : PiecesWritten n f s (storePieces n (permute n f) s) where
  psize_used p hp := by
    obtain ⟨-, -, hfit, -, -⟩ := hr
    rw [storePieces_psize, if_pos hp, permute_getD hp, permutePiece_length, BitVec.toNat_ofNat]
    exact Nat.mod_eq_of_lt ((hfit p hp).trans_lt (s.psize[p]).isLt)
  psize_unused p hp := by rw [storePieces_psize, if_neg (Nat.not_lt.2 hp)]
  bits p hp g hg := by
    have hn0 : 0 < n := Nat.lt_of_lt_of_le Nat.zero_lt_two hn.1
    have ha : (pieceTarget (permute n f) s p).Has ((s.paddr[p]).toNat + g) := by
      rw [pieceTarget_permute f s hp]
      exact ⟨Nat.le_add_right _ _, Nat.add_lt_add_left hg _⟩
    obtain ⟨hread, -⟩ := storePieces_read_inside n (permute n f) s _ p hp ha
      fun q hq hqp => pieceTargets_apart hr hp hq hqp ha
    rw [permute_getD hp, Nat.add_sub_cancel_left, getElem?_eq_some_byteAt (by rwa [permutePiece_length]),
      byteAt_permutePiece hg] at hread
    exact ⟨_, hread, fun b hb => permGroup_getLsbD hn0 _ _ hb⟩
  outside a ha := by
    refine storePieces_read_outside n (permute n f) s a fun p hp => ?_
    rw [pieceTarget_permute f s hp]
    exact ha _ (List.mem_map_of_mem ((mem_slots n p).2 hp))

/-! ### The output written (R156, R157) -/

/-- The bytes `bs` stand at DST_ADDR, DST_SIZE holds their length, and no other byte of memory differs. -/
structure OutputWritten (bs : Bytes) (s t : State) : Prop where
  dstSize : t.dstSize.toNat = bs.length
  bytes : ∀ i < bs.length, t.mem.read (s.dstAddr.toNat + i) = some (byteAt bs i)
  outside : KeptOutside [{ base := s.dstAddr.toNat, len := bs.length }] s t

theorem storeOutput_written {bs : Bytes} {s : State} (hfit : bs.length ≤ s.dstSize.toNat) :
    OutputWritten bs s (storeOutput bs s) where
  dstSize := by
    rw [storeOutput_dstSize, BitVec.toNat_ofNat]
    exact Nat.mod_eq_of_lt (hfit.trans_lt s.dstSize.isLt)
  bytes i hi := by
    rw [storeOutput_mem, Memory.read_writeBytes, if_pos (by omega), Nat.add_sub_cancel_left,
      getElem?_eq_some_byteAt hi]
  outside a ha := by
    have ha' : ¬ Region.Has { base := s.dstAddr.toNat, len := bs.length } a := ha _ List.mem_cons_self
    rw [storeOutput_mem, storeOutput_stale, Memory.read_writeBytes, Memory.read_forget]
    exact ⟨if_neg ha', if_neg ha'⟩

/-- The pieces that memory holds are the pieces that GATHER and UNPERMUTE read. -/
theorem readPieces_of_holdsPieces {n : Nat} {s : State} {xs : List Bytes} (hn : LegalCount n)
    (hr : PiecesReady n s) (h : HoldsPieces n s xs) :
    readPieces s (s.psize[(0 : Fin 8)]).toNat (slots n) = .ok xs := by
  obtain ⟨heq, -⟩ := hr
  obtain ⟨hlen, hholds⟩ := h
  rw [readPieces_ok_iff, List.forall₂_iff_get]
  refine ⟨by rw [slots_length hn.2, hlen], fun i hi hi' => ?_⟩
  have hin : i < n := by rwa [slots_length hn.2] at hi
  have hslot : (slots n).get ⟨i, hi⟩ = (⟨i, by omega⟩ : Fin 8) := by
    have := slots_getElem? hn.2 ⟨i, by omega⟩ hin
    rwa [List.getElem?_eq_getElem hi, Option.some.injEq] at this
  have hpiece := hholds ⟨i, by omega⟩ hin
  rw [pieceRegion_eq heq _ hin, List.getD_eq_getElem _ _ hi'] at hpiece
  rw [hslot]
  exact hpiece

/-! ### Completion of a command -/

theorem reports_finish {s u : State} (h : u.status = s.status) (k : ResultKind) (info : BitVec 8) :
    Reports k.code info s (finish k info u) :=
  ⟨by rw [finish_status, h]; rfl, rfl⟩

theorem withMasks_success {n : Nat} (hn : LegalCount n) {s u : State} {f : State → Except Stop State}
    (h : f (loadMasks n s) = .ok u) : withMasks n s f = .next (finish .success 0 u) := by
  rw [withMasks_legal hn, h]
  rfl

/-- A result raised past the piece-count check: MASKS is loaded, and nothing else changes but STATUS and
LCMD (R182). -/
theorem withMasks_raised {n : Nat} (hn : LegalCount n) {s : State} {f : State → Except Stop State}
    {k : ResultKind} {info : BitVec 8} (h : f (loadMasks n s) = .error (.raised k info)) :
    ∃ t, withMasks n s f = .next t ∧ MasksFor n t ∧ Reports k.code info s t ∧
      t = { s with masks := t.masks, status := t.status, lcmd := t.lcmd } := by
  refine ⟨finish k info (loadMasks n s), ?_, masksFor_of_masks rfl, reports_finish rfl k info, rfl⟩
  rw [withMasks_legal hn, h]
  rfl

/-- A command whose checks pass succeeds with its outputs: the converse of `exec_next`. -/
theorem Outputs.exec_eq {n : Nat} {i : Instr} {s u : State} (h : Outputs (loadMasks n s) i u)
    (hi : pieceCount i = n) (hn : LegalCount n) : exec i s = .next (finish .success 0 u) := by
  subst hi
  cases h with
  | none n => exact withMasks_success hn rfl
  | scatter n pl d hr hpl hd =>
    exact withMasks_success hn ((scatterEffect_ok_iff _ _ _ _).2 ⟨rfl, hr, pl, d, hpl, hd, rfl⟩)
  | permute n f hr hf =>
    exact withMasks_success hn ((permuteEffect_ok_iff _ _ _ _).2 ⟨rfl, hr, f, hf, rfl⟩)
  | gather n xs pl hr hxs hlen hv hfit =>
    exact withMasks_success hn ((gatherEffect_ok_iff _ _ _ _).2 ⟨rfl, hr, xs, hxs, hlen, pl, hv, hfit, rfl⟩)
  | unpermute n xs hr hfit hxs =>
    exact withMasks_success hn ((unpermuteEffect_ok_iff _ _ _ _).2 ⟨rfl, hr, hfit, xs, hxs, rfl⟩)

/-- What every successful command shows: MASKS, the result, and what no command writes. -/
theorem Outputs.completes {n : Nat} {i : Instr} {s u : State} (h : Outputs (loadMasks n s) i u)
    (hi : pieceCount i = n) (hn : LegalCount n) :
    exec i s = .next (finish .success 0 u) ∧ MasksFor n (finish .success 0 u) ∧
      Reports 0 0 s (finish .success 0 u) ∧ KeptByCommand s (finish .success 0 u) := by
  obtain ⟨hkept, hstatus, hmasks⟩ := h.kept
  exact ⟨h.exec_eq hi hn, masksFor_of_masks hmasks, reports_finish hstatus .success 0, hkept⟩

/-- Settles O20: nothing can fail once the piece count is legal. -/
theorem genmaskCompletes : Obligations.GenmaskCompletes := by
  intro s n hn
  obtain ⟨hexec, hmasks, hrep, -⟩ := (Outputs.none (s := loadMasks n s) n).completes rfl hn
  exact ⟨_, hexec, hmasks, hrep, rfl⟩

/-- Settles O21: the pieces written are those of the framed payload. -/
theorem scatterCompletes : Obligations.ScatterCompletes := by
  intro s n pl d hn hr hpl hd plen
  obtain ⟨hexec, hmasks, hrep, hkept⟩ :=
    (Outputs.scatter (s := loadMasks n s) n pl d hr hpl hd).completes rfl hn
  have hlen : (frame s.cfg pl d).length = 76 + s.srcLen.toNat := frame_length_of_holds hpl s.cfg d
  have hplen : pieceLen n (frame s.cfg pl d).length = plen := by rw [hlen]; rfl
  have hw := storePieces_written (f := frame s.cfg pl d) (s := loadMasks n s) hn (by rwa [hlen])
  obtain ⟨-, -, -, -, -, hdst, -⟩ := storePieces_kept n (permute n (frame s.cfg pl d)) (loadMasks n s)
  rw [← hplen]
  exact ⟨_, hexec, hmasks, hrep, hkept, hdst, hw.psize_used, hw.psize_unused, hw.bits, hw.outside⟩

/-- Settles O22: the pieces written are those of the bare input. -/
theorem permuteCompletes : Obligations.PermuteCompletes := by
  intro s n f hn hr hf plen
  obtain ⟨hexec, hmasks, hrep, hkept⟩ := (Outputs.permute (s := loadMasks n s) n f hr hf).completes rfl hn
  have hlen : f.length = s.srcLen.toNat := hf.1
  have hplen : pieceLen n f.length = plen := by rw [hlen]; rfl
  have hw := storePieces_written (f := f) (s := loadMasks n s) hn (by rwa [hlen])
  obtain ⟨-, -, -, -, -, hdst, -⟩ := storePieces_kept n (permute n f) (loadMasks n s)
  rw [← hplen]
  exact ⟨_, hexec, hmasks, hrep, hkept, hdst, hw.psize_used, hw.psize_unused, hw.bits, hw.outside⟩

theorem slice_length {bs : Bytes} {a b : Nat} (h : b ≤ bs.length) : (slice bs a b).length = b - a := by
  simp only [slice, List.length_take, List.length_drop]
  omega

/-- Settles O23: the payload that passes verification fits and is written. -/
theorem gatherCompletes : Obligations.GatherCompletes := by
  intro s n xs d hn hr hxs plen r len pl hhdr hlen hd hhex hfit
  have hrlen : r.length = n * plen := unpermute_length n plen xs
  have hpllen : pl.length = len := by
    rw [slice_length (by omega), Nat.add_sub_cancel_left]
  have hverify : verify s.cfg r = .ok pl :=
    (verify_ok_iff _ _ _).2 ⟨by rwa [hrlen], rfl, d, hd, hhex⟩
  have hread : readPieces (loadMasks n s) plen (slots n) = .ok xs :=
    readPieces_of_holdsPieces (s := loadMasks n s) hn hr hxs
  obtain ⟨hexec, hmasks, hrep, hkept⟩ := (Outputs.gather (s := loadMasks n s) n xs pl hr hread
    (by rwa [unpermute_length]) hverify hfit).completes rfl hn
  have hw : OutputWritten pl (loadMasks n s) (storeOutput pl (loadMasks n s)) :=
    storeOutput_written (by rwa [hpllen])
  obtain ⟨hdst, hbytes, hout⟩ := hw
  rw [hpllen] at hdst hbytes hout
  exact ⟨_, hexec, hmasks, hrep, hkept, rfl, hdst, hpllen, hbytes, hout⟩

/-- Settles O24: the whole reconstructed buffer is written, and its bits are those of R151. -/
theorem unpermuteCompletes : Obligations.UnpermuteCompletes := by
  intro s n xs hn hr hxs plen hfit
  have hn0 : 0 < n := Nat.lt_of_lt_of_le Nat.zero_lt_two hn.1
  have hread : readPieces (loadMasks n s) plen (slots n) = .ok xs :=
    readPieces_of_holdsPieces (s := loadMasks n s) hn hr hxs
  obtain ⟨hexec, hmasks, hrep, hkept⟩ :=
    (Outputs.unpermute (s := loadMasks n s) n xs hr hfit hread).completes rfl hn
  have hlen : (unpermute n plen xs).length = n * plen := unpermute_length n plen xs
  have hw : OutputWritten (unpermute n plen xs) (loadMasks n s)
      (storeOutput (unpermute n plen xs) (loadMasks n s)) := storeOutput_written (by rwa [hlen])
  obtain ⟨hdst, hbytes, hout⟩ := hw
  rw [hlen] at hdst hbytes hout
  refine ⟨_, hexec, hmasks, hrep, hkept, rfl, hdst, fun i hi r hrn => ?_, hout⟩
  have hpos : i * n + r < n * plen := by
    calc i * n + r < (i + 1) * n := by rw [Nat.succ_mul]; omega
      _ ≤ plen * n := Nat.mul_le_mul_right n hi
      _ = n * plen := Nat.mul_comm _ _
  refine ⟨_, hbytes _ hpos, fun b hb => ?_⟩
  rw [byteAt_unpermute xs hrn hi]
  exact unpermCol_getLsbD hn0 xs i r hb

/-! ### The piece count and the number of descriptors (R74, R183 steps 2 and 3) -/

theorem exec_illegalCount {i : Instr} (h : ¬ LegalCount (pieceCount i)) (s : State) :
    exec i s = .next (finish .invalidPieceCount 0 s) := by
  cases i <;> exact withMasks_illegal h s _

/-- Settles O25: the piece count is checked before anything else. -/
theorem illegalPieceCount : Obligations.IllegalPieceCount := by
  intro s n k hn i hi
  have hcount : pieceCount i = n := by
    simp only [List.mem_cons, List.not_mem_nil, or_false] at hi
    rcases hi with rfl | rfl | rfl | rfl | rfl <;> rfl
  rw [← hcount] at hn
  exact exec_illegalCount hn s

theorem require_bind_of_not {α : Type} {p : Prop} [Decidable p] (h : ¬ p) (k : ResultKind)
    (info : BitVec 8) (f : Unit → Except Stop α) :
    (require p k info >>= f) = .error (.raised k info) := by
  rw [require_bind, if_neg h]

/-- Settles O26: K = N is the first check of each of the four commands once MASKS is loaded. -/
theorem countMismatch : Obligations.CountMismatch := by
  intro s n k hn hk i hi
  simp only [List.mem_cons, List.not_mem_nil, or_false] at hi
  have stops {α : Type} (f : Unit → Except Stop α) := require_bind_of_not hk .outputCountMismatch 0 f
  rcases hi with rfl | rfl | rfl | rfl
  · exact withMasks_raised (f := scatterEffect n k) hn (stops _)
  · exact withMasks_raised (f := gatherEffect n k) hn (stops _)
  · exact withMasks_raised (f := permuteEffect n k) hn (stops _)
  · exact withMasks_raised (f := unpermuteEffect n k) hn (stops _)

end Sys2Proof.Machine
end

section
/-!
What a command leaves alone, and that nothing it does depends on STATUS (spec/10_state.md R27 to R33, R40,
R42); STATUS as a word (R26, R38); and which words are illegal (spec/30_encoding.md R71, R73).
-/

namespace Sys2Proof.Machine

/-! ### Frames (R42) -/

/-- Only SCATTER and PERMUTE write a PSIZE, at slots p < N, and only GATHER and UNPERMUTE write
DST_SIZE. -/
theorem Outputs.sizes_kept {i : Instr} {s u : State} (h : Outputs s i u) :
    (∀ p : Fin 8, (∀ n k, i = .scatter n k ∨ i = .permute n k → n ≤ p.val) → u.psize[p] = s.psize[p]) ∧
    ((∀ n k, i ≠ .gather n k ∧ i ≠ .unpermute n k) → u.dstSize = s.dstSize) := by
  have hpieces (n : Nat) (xs : List Bytes) :
      (∀ p : Fin 8, n ≤ p.val → (storePieces n xs s).psize[p] = s.psize[p]) ∧
      (storePieces n xs s).dstSize = s.dstSize := by
    obtain ⟨-, -, -, -, -, hdst, -⟩ := storePieces_kept n xs s
    exact ⟨fun p hp => by rw [storePieces_psize, if_neg (Nat.not_lt.2 hp)], hdst⟩
  cases h with
  | none n => exact ⟨fun _ _ => rfl, fun _ => rfl⟩
  | scatter n pl d =>
    obtain ⟨hpsize, hdst⟩ := hpieces n (Machine.permute n (frame s.cfg pl d))
    exact ⟨fun p hp => hpsize p (hp n n (.inl rfl)), fun _ => hdst⟩
  | permute n f =>
    obtain ⟨hpsize, hdst⟩ := hpieces n (Machine.permute n f)
    exact ⟨fun p hp => hpsize p (hp n n (.inr rfl)), fun _ => hdst⟩
  | gather n xs pl => exact ⟨fun _ _ => rfl, fun hi => absurd rfl (hi n n).1⟩
  | unpermute n xs => exact ⟨fun _ _ => rfl, fun hi => absurd rfl (hi n n).2⟩

/-- Settles O35: a command that raises a result writes none of these registers but MASKS; one that succeeds
writes its outputs. -/
theorem registerFrame : Obligations.RegisterFrame := by
  intro i s t h
  rcases exec_next i s t h with ⟨-, rfl⟩ | ⟨hn, u, hu, rfl⟩ | ⟨hn, k, info, -, rfl⟩
  · exact ⟨by simp [KeptByCommand], fun _ => rfl, fun _ _ => rfl, fun _ => rfl⟩
  · obtain ⟨hkept, -, -⟩ := hu.kept
    obtain ⟨hpsize, hdst⟩ := hu.sizes_kept
    exact ⟨hkept, fun hn' => absurd hn hn', hpsize, hdst⟩
  · exact ⟨by simp [KeptByCommand], fun hn' => absurd hn hn', fun _ _ => rfl, fun _ => rfl⟩

/-! ### STATUS is no input of a command (R40) -/

/-- The state with another STATUS. -/
def setStatus (st : Status) (s : State) : State := { s with status := st }

theorem storePieces_setStatus (n : Nat) (xs : List Bytes) (st : Status) (s : State) :
    storePieces n xs (setStatus st s) = setStatus st (storePieces n xs s) := by
  unfold storePieces
  generalize slots n = ps
  induction ps generalizing s with
  | nil => rfl
  | cons p ps ih => exact ih (storePiece (xs.getD p.val []) s p)

theorem readPieces_setStatus (st : Status) (s : State) (plen : Nat) (ps : List (Fin 8)) :
    readPieces (setStatus st s) plen ps = readPieces s plen ps := by
  induction ps with
  | nil => rfl
  | cons p ps ih =>
    simp only [readPieces, ih]
    rfl

/-- A command's effect does the same to a state with another STATUS, which it passes on. -/
def PassesStatus (f : State → Except Stop State) : Prop :=
  ∀ st s, f (setStatus st s) = (f s).map (setStatus st)

theorem map_bind_except {α β : Type} (x : Except Stop α) (f : α → Except Stop State)
    (g : State → β) : (x >>= f).map g = x >>= fun a => (f a).map g := by
  cases x <;> rfl

theorem scatterEffect_passesStatus (n k : Nat) : PassesStatus (scatterEffect n k) := by
  intro st s
  simp only [scatterEffect, map_bind_except, storePieces_setStatus]
  rfl

theorem permuteEffect_passesStatus (n k : Nat) : PassesStatus (permuteEffect n k) := by
  intro st s
  simp only [permuteEffect, map_bind_except, storePieces_setStatus]
  rfl

theorem gatherEffect_passesStatus (n k : Nat) : PassesStatus (gatherEffect n k) := by
  intro st s
  simp only [gatherEffect, map_bind_except, readPieces_setStatus]
  rfl

theorem unpermuteEffect_passesStatus (n k : Nat) : PassesStatus (unpermuteEffect n k) := by
  intro st s
  simp only [unpermuteEffect, map_bind_except, readPieces_setStatus]
  rfl

/-- How a run goes on from a state with another STATUS: to the same end, with that STATUS's OVR. -/
def withOvr (st : Status) : Host.Outcome State Fault Refusal → Host.Outcome State Fault Refusal
  | .next t => .next { t with status := { t.status with ovr := st.ovr } }
  | .fault f => .fault f
  | .refused r => .refused r

theorem conclude_setStatus (st : Status) (s : State) (e : Except Stop State) :
    conclude (setStatus st s) (e.map (setStatus st)) = withOvr st (conclude s e) := by
  rcases e with (⟨k, info⟩ | f) | u <;> rfl

theorem withMasks_setStatus {f : State → Except Stop State} (hf : PassesStatus f) (n : Nat) (st : Status)
    (s : State) : withMasks n (setStatus st s) f = withOvr st (withMasks n s f) := by
  by_cases hn : LegalCount n
  · rw [withMasks_legal hn, withMasks_legal hn, ← conclude_setStatus, ← hf]
    rfl
  · rw [withMasks_illegal hn, withMasks_illegal hn]
    rfl

theorem exec_setStatus (i : Instr) (st : Status) (s : State) :
    exec i (setStatus st s) = withOvr st (exec i s) := by
  cases i with
  | genmask n => exact withMasks_setStatus (fun _ _ => rfl) n st s
  | scatter n k => exact withMasks_setStatus (scatterEffect_passesStatus n k) n st s
  | gather n k => exact withMasks_setStatus (gatherEffect_passesStatus n k) n st s
  | permute n k => exact withMasks_setStatus (permuteEffect_passesStatus n k) n st s
  | unpermute n k => exact withMasks_setStatus (unpermuteEffect_passesStatus n k) n st s

/-- Settles O37: every check and effect passes STATUS by, and completion keeps its OVR alone. -/
theorem outcomeIgnoresStatus : Obligations.OutcomeIgnoresStatus := by
  intro i s st
  refine ⟨fun t ht => ?_, fun f hf => ?_⟩
  · exact (exec_setStatus i st s).trans (congrArg (withOvr st) ht)
  · exact (exec_setStatus i st s).trans (congrArg (withOvr st) hf)

/-! ### STATUS as a word (R26, R38) -/

theorem toNat_append_eq_add {m n : Nat} (x : BitVec m) (y : BitVec n) :
    (x ++ y).toNat = x.toNat * 2 ^ n + y.toNat := by
  rw [BitVec.toNat_append, ← Nat.shiftLeft_add_eq_or_of_lt y.isLt, Nat.shiftLeft_eq]

/-- R26: STATUS as the sum of its fields at their weights. -/
theorem statusWord_toNat (st : Status) :
    (statusWord st).toNat = st.busy.toNat + 2 * st.done.toNat + 4 * st.ovr.toNat
      + 16 * st.err.toNat + 256 * st.info.toNat := by
  have hb := st.busy.toNat_lt
  have hd := st.done.toNat_lt
  have ho := st.ovr.toNat_lt
  unfold statusWord
  rw [BitVec.toNat_setWidth, Nat.mod_eq_of_lt (by omega)]
  simp only [toNat_append_eq_add, BitVec.toNat_ofBool]
  simp
  omega

/-- R26: STATUS bit by bit. -/
theorem statusWord_getLsbD (st : Status) (i : Nat) :
    (statusWord st).getLsbD i =
      if i = 0 then st.busy else if i = 1 then st.done else if i = 2 then st.ovr else if i = 3 then false
      else if i < 8 then st.err.getLsbD (i - 4) else st.info.getLsbD (i - 8) := by
  unfold statusWord
  simp only [BitVec.getLsbD_setWidth, BitVec.getLsbD_append, BitVec.getLsbD_ofBool]
  have := st.info.getLsbD_of_ge (i - 8)
  grind

theorem getLsbD_twoPow (j : Nat) {i : Nat} (hi : i < 64) :
    (BitVec.ofNat 64 (2 ^ j)).getLsbD i = decide (i = j) := by
  rw [BitVec.getLsbD_ofNat, Nat.testBit_two_pow]
  grind

/-- R38: the STATUS word of a completion, from the result and the OVR bit of the word before. -/
theorem statusWord_completed (st : Status) (k : ResultKind) (info : BitVec 8) :
    statusWord (st.completed k info) = (info.setWidth 64 <<< 8) ||| (k.code.setWidth 64 <<< 4)
      ||| (statusWord st &&& 4) ||| 2 := by
  apply BitVec.eq_of_getLsbD_eq
  intro i hi
  have h4 : (4 : Word).getLsbD i = decide (i = 2) := getLsbD_twoPow 2 hi
  have h2 : (2 : Word).getLsbD i = decide (i = 1) := getLsbD_twoPow 1 hi
  have hinfo := info.getLsbD_of_ge (i - 8)
  have hcode := k.code.getLsbD_of_ge (i - 4)
  rw [BitVec.getLsbD_or, BitVec.getLsbD_or, BitVec.getLsbD_or, BitVec.getLsbD_and, h4, h2]
  simp only [statusWord_getLsbD, BitVec.getLsbD_setWidth, BitVec.getLsbD_shiftLeft]
  grind [completed_busy, completed_done, completed_ovr, completed_err, completed_info]

/-- Settles O34: every completion is of the form `Status.completed`. -/
theorem completionReports : Obligations.CompletionReports := by
  intro i s t h
  obtain ⟨k, info, -, hst, hl⟩ := exec_reports h
  rw [hst]
  exact ⟨rfl, rfl, rfl, hl, statusWord_completed s.status k info⟩

/-! ### Illegal words (R71, R73) -/

/-- R180: code 8 is IllegalCommand's alone. -/
theorem code_ne_of_ne_illegalCommand {k : ResultKind} (h : k ≠ .illegalCommand) : k.code ≠ 8 := by
  cases k
  case illegalCommand => exact absurd rfl h
  all_goals decide

theorem opField_toNat (w : Word) : (opField w).toNat = w.toNat % 16 := by
  simp [opField]

theorem kField_eq (w : Word) : kField w = w.toNat / 256 % 16 := by
  simp [kField, Nat.shiftRight_eq_div_pow]

theorem rsvField_eq_zero_iff (w : Word) : rsvField w = 0 ↔ w.toNat / 4096 = 0 := by
  have hw : w.toNat / 4096 < 2 ^ 52 := by
    have := w.isLt
    omega
  rw [← BitVec.toNat_inj, rsvField, BitVec.extractLsb'_toNat, Nat.shiftRight_eq_div_pow,
    Nat.mod_eq_of_lt hw]
  rfl

/-- R73: the words that do not decode, by their fields. -/
theorem decode_error_iff (w : Word) :
    (∃ e, decode w = .error e) ↔
      ((opField w).toNat = 0 ∨ 6 ≤ (opField w).toNat) ∨ rsvField w ≠ 0 ∨
        ((opField w).toNat = 1 ∧ kField w ≠ 0) := by
  by_cases hr : rsvField w ≠ 0
  · exact iff_of_true ⟨.reservedBits, if_pos hr⟩ (.inr (.inl hr))
  · rw [decode, if_neg hr]
    split
    case h_1 => split <;> simp_all
    case h_6 =>
      have hop : (opField w).toNat = 0 ∨ 6 ≤ (opField w).toNat := by grind
      exact iff_of_true ⟨_, rfl⟩ (.inl hop)
    all_goals simp_all

/-- Settles O5: the fields decide whether the latched word decodes, and no command of a word that does
reports IllegalCommand. -/
theorem illegalWordCompletes : Obligations.IllegalWordCompletes := by
  intro s w hn hb hw op k rsv
  have hfields : (∃ e, decode w = .error e) ↔ (op = 0 ∨ 6 ≤ op) ∨ rsv ≠ 0 ∨ (op = 1 ∧ k ≠ 0) := by
    rw [decode_error_iff, opField_toNat, kField_eq, Ne, rsvField_eq_zero_iff]
  split
  case isTrue hbad =>
    obtain ⟨e, he⟩ := hfields.2 hbad
    exact step_illegal hn hb hw he
  case isFalse hgood =>
    intro t ht
    cases hd : decode w with
    | error e => exact absurd (hfields.1 ⟨e, hd⟩) hgood
    | ok i =>
      rw [stepRunsDecodedCommand s w i hn hb hw hd] at ht
      obtain ⟨r, info, hr, hst, -⟩ := exec_reports ht
      rw [hst, completed_err]
      exact code_ne_of_ne_illegalCommand (reportedResults_legal hr).2

end Sys2Proof.Machine
end

section
/-!
The register window: what each offset reads and writes, idle and busy, and what reset leaves there
(spec/10_state.md R23 to R26, R34 to R37, R43; spec/70_reset_and_hazards.md R200, R204).
-/

namespace Sys2Proof.Machine

/-! ### The map of the window (R23) -/

theorem regAt_reserved {slot : Slot} (h : slot.val = 7 ∨ 24 ≤ slot.val) : regAt slot = .reserved := by
  revert slot
  decide

theorem regAt_paddr {slot : Slot} {p : Fin 8} (h : slot.val = 8 + p.val) : regAt slot = .paddr p := by
  revert slot p
  decide

theorem regAt_psize {slot : Slot} {p : Fin 8} (h : slot.val = 16 + p.val) : regAt slot = .psize p := by
  revert slot p
  decide

/-- R35: the registers that a write while idle stores to. -/
def isDescriptor : Reg → Bool
  | .srcAddr | .srcLen | .dstAddr | .dstSize | .paddr _ | .psize _ => true
  | .cmd | .status | .masks | .reserved => false

/-- R23, R35: the descriptor registers are at offsets 0x10 to 0x28 and 0x40 to 0xB8. -/
theorem isDescriptor_regAt (slot : Slot) :
    isDescriptor (regAt slot) = true ↔ (2 ≤ slot.val ∧ slot.val ≤ 5) ∨ (8 ≤ slot.val ∧ slot.val < 24) := by
  revert slot
  decide

/-- R23: a descriptor register has one offset. -/
theorem regAt_eq_descriptor_iff {slot : Slot} (h : isDescriptor (regAt slot) = true) (q : Slot) :
    regAt q = regAt slot ↔ q = slot := by
  revert slot q
  decide

theorem regAt_eq_cmd_iff (slot : Slot) : regAt slot = .cmd ↔ slot.val = 0 := by
  revert slot
  decide

/-! ### Reads (R24 to R26, R34) -/

theorem step_hostOp {s : State} {op : HostOp} {ps : List HostOp} (hn : nextTurn s = .host)
    (hp : s.prog = op :: ps) :
    step s = hostOp { s with turns := s.turns.tail, prog := ps } op := by
  rw [step_host hn, hostTurn, tookTurn_prog, hp]
  rfl

/-- Settles O40: the value read is `readReg` of the register at the offset. -/
theorem registerReads : Obligations.RegisterReads := by
  intro s slot ps hn hp
  refine ⟨readReg s (regAt slot), step_hostOp hn hp, ?zero, ?status, ?srcAddr, ?srcLen, ?dstAddr,
    ?dstSize, ?masks, ?paddr, ?psize⟩
  case zero =>
    rintro (h | h)
    · rw [(regAt_eq_cmd_iff slot).2 h, readReg]
    · rw [regAt_reserved h, readReg]
  case status =>
    intro h
    obtain rfl : slot = 1 := Fin.ext h
    exact statusWord_toNat s.status
  case paddr =>
    intro p h
    rw [regAt_paddr h, readReg]
  case psize =>
    intro p h
    rw [regAt_psize h, readReg]
  case srcAddr =>
    intro h
    obtain rfl : slot = 2 := Fin.ext h
    rfl
  case srcLen =>
    intro h
    obtain rfl : slot = 3 := Fin.ext h
    rfl
  case dstAddr =>
    intro h
    obtain rfl : slot = 4 := Fin.ext h
    rfl
  case dstSize =>
    intro h
    obtain rfl : slot = 5 := Fin.ext h
    rfl
  case masks =>
    intro h
    obtain rfl : slot = 6 := Fin.ext h
    rfl

/-! ### Writes (R35 to R37) -/

/-- R35: a descriptor takes the value written, and every other register reads as before. -/
theorem readReg_writeReg {r : Reg} (h : isDescriptor r = true) (v : Word) (s : State) (q : Reg) :
    readReg (writeReg v s r) q = if q = r then v else readReg s q := by
  cases r with
  | cmd | status | masks | reserved => cases h
  | srcAddr | srcLen | dstAddr | dstSize => cases q <;> simp [writeReg, readReg]
  | paddr p | psize p =>
    cases q <;> simp [writeReg, readReg, Vector.getElem_set, Fin.ext_iff, eq_comm]

/-- R34, R35: a write to STATUS, MASKS or a reserved offset has no effect. -/
theorem writeReg_ignored {r : Reg} (h : isDescriptor r = false) (hcmd : r ≠ .cmd) (v : Word) (s : State) :
    writeReg v s r = s := by
  cases r with
  | cmd => exact absurd rfl hcmd
  | status | masks | reserved => rfl
  | srcAddr | srcLen | dstAddr | dstSize | paddr p | psize p => cases h

theorem writeReg_frame {r : Reg} (hcmd : r ≠ .cmd) (v : Word) (s : State) :
    writeReg v s r = { s with
      srcAddr := (writeReg v s r).srcAddr, srcLen := (writeReg v s r).srcLen
      dstAddr := (writeReg v s r).dstAddr, dstSize := (writeReg v s r).dstSize
      paddr := (writeReg v s r).paddr, psize := (writeReg v s r).psize } := by
  cases r with
  | cmd => exact absurd rfl hcmd
  | _ => rfl

theorem step_regWrite_idle {s : State} {slot : Slot} {v : Word} {ps : List HostOp}
    (hn : nextTurn s = .host) (hp : s.prog = .regWrite slot v :: ps) (hb : s.status.busy = false) :
    step s = .next (writeReg v { s with turns := s.turns.tail, prog := ps } (regAt slot)) := by
  rw [step_hostOp hn hp, hostOp, regWrite, if_neg (by simp [hb])]

/-- Settles O41: the write is `writeReg` of a register that is not CMD. -/
theorem idleRegisterWrite : Obligations.IdleRegisterWrite := by
  intro s slot v ps hn hp hb hslot
  have hcmd : regAt slot ≠ .cmd := fun h => hslot ((regAt_eq_cmd_iff slot).1 h)
  refine ⟨_, step_regWrite_idle hn hp hb, fun q => ?_, writeReg_frame hcmd v _⟩
  simp only [← isDescriptor_regAt slot]
  cases hd : isDescriptor (regAt slot) with
  | true =>
    rw [readReg_writeReg hd]
    simp only [regAt_eq_descriptor_iff hd, and_true]
    rfl
  | false =>
    rw [writeReg_ignored hd hcmd, if_neg (by simp)]
    rfl

/-- Settles O42: the busy branch of RegWrite. -/
theorem busyRegisterWrite : Obligations.BusyRegisterWrite := by
  intro s slot v ps hn hp hb
  rw [step_hostOp hn hp, hostOp, regWrite, if_pos hb]
  rfl

theorem statusWord_accepted : statusWord Status.accepted = 1 := by decide

/-- Settles O43: offset 0 is CMD, whose write while idle is acceptance. -/
theorem acceptance : Obligations.Acceptance := by
  intro s v ps hn hp hb
  exact ⟨_, step_regWrite_idle hn hp hb, statusWord_accepted, rfl, rfl, rfl⟩

/-! ### A command in flight (R36, R58, R204) -/

/-- What the engine works with and the host's transactions leave alone while BUSY = 1. -/
abbrev KeptInFlight (s t : State) : Prop :=
  t.lcmd = s.lcmd ∧ t.status = { s.status with ovr := t.status.ovr } ∧ t.cfg = s.cfg ∧
  t.srcAddr = s.srcAddr ∧ t.srcLen = s.srcLen ∧ t.dstAddr = s.dstAddr ∧ t.dstSize = s.dstSize ∧
  t.paddr = s.paddr ∧ t.psize = s.psize ∧ t.masks = s.masks ∧ t.mem = s.mem

theorem HostEffect.keptInFlight {s t : State} {op : HostOp} (h : HostEffect s op t)
    (hb : s.status.busy = true) : KeptInFlight s t := by
  cases h with
  | regRead slot | overrun slot v | polling => simp [KeptInFlight, Status.overrun]
  | regWrite slot v hidle | memWr a b ha hidle | polled hidle => simp [hb] at hidle
  | memRd a ha hz =>
    rcases peekByte_spec a s with ⟨-, h⟩ | ⟨-, -, h⟩
    · simp [KeptInFlight, h]
    · simp [KeptInFlight, h]

/-- Settles O44: while BUSY = 1 a transaction that goes on is a read or an overrun. -/
theorem inFlightStable : Obligations.InFlightStable := by
  intro s t hn hb h
  rw [step_host hn] at h
  rcases hostTurn_next _ _ h with ⟨-, rfl⟩ | ⟨op, rest, -, heff⟩
  · simp
  · exact heff.keptInFlight hb

/-! ### Reset (R43, R200) -/

theorem statusWord_reset : statusWord Status.reset = 0 := by decide

/-- R43: every register reads 0 when STATUS is 0 and the storage of the others is 0. -/
theorem readReg_of_reset {s : State} (c : Config) (h : s = { State.resetWith c with
      stale := s.stale, draws := s.draws, replies := s.replies, prog := s.prog, turns := s.turns })
    (r : Reg) : readReg s r = 0 := by
  rw [h]
  cases r with
  | status => exact statusWord_reset
  | paddr p | psize p => simp [readReg, State.resetWith]
  | _ => rfl

/-- Settles O50: the reset input gives the registers their reset values. -/
theorem resetClearsRegisters : Obligations.ResetClearsRegisters := by
  intro s hn
  exact ⟨_, step_reset hn, fun _ => readReg_of_reset s.cfg rfl _, rfl, rfl, fun _ => rfl, rfl⟩

/-- Settles O52: the state after reset gives the registers their reset values. -/
theorem resetState : Obligations.ResetState :=
  fun c => ⟨fun _ => readReg_of_reset c rfl _, rfl, rfl, rfl, rfl⟩

end Sys2Proof.Machine
end

section
/-!
Buffer memory and the host: what a byte write and a byte read make of memory, and that a read settles the
byte it returns (spec/20_memory.md R50, R57, R60, R63).
-/

namespace Sys2Proof.Machine

/-! ### A byte written (R50, R57) -/

theorem writeRegion_byte_read (a : Nat) (b : Byte) (s : State) (x : Nat) :
    (writeRegion a [b] s).mem.read x = if x = a then some b else s.mem.read x :=
  Memory.read_write s.mem a b x

/-- The byte written is the one that counts, and what else was settled stays. -/
theorem settledByte_writeRegion_byte (a : Nat) (b : Byte) (s : State) (x : Nat) :
    settledByte (writeRegion a [b] s) x = if x = a then some b else settledByte s x := by
  rw [settledByte, writeRegion_byte_read, writeRegion_stale, Memory.read_forget]
  by_cases h : x = a
  · rw [if_pos h, if_pos h, Option.some_or]
  · have hout : ¬ Region.Has { base := a, len := [b].length } x := by
      simp only [Region.Has, List.length_singleton]
      omega
    rw [if_neg h, if_neg h, if_neg hout, settledByte]

/-- Settles O46: the idle branch of MemWr is `writeRegion` of one byte. -/
theorem hostMemoryWrite : Obligations.HostMemoryWrite := by
  intro s a b ps hn hp
  rw [step_hostOp hn hp, hostOp, hostMemWr]
  refine ⟨fun ha => if_pos ha, fun ha hb => ?_⟩
  rw [if_neg (Nat.not_le.2 ha), if_neg (by simp [hb])]
  exact ⟨_, rfl, writeRegion_byte_read a b _, settledByte_writeRegion_byte a b _, rfl⟩

/-! ### A byte read (R50, R60) -/

/-- A host read of a settled byte changes nothing. -/
theorem peekByte_of_settled {a : Nat} {s : State} {b : Byte} (h : settledByte s a = some b) :
    peekByte a s = (b, s) := by
  rcases peekByte_spec a s with ⟨hb, hs⟩ | ⟨hnone, -, -⟩
  · exact Prod.ext (Option.some.inj (hb.symm.trans h)) hs
  · rw [hnone] at h
    cases h

/-- A free byte drawn by a host read is settled at its address and nowhere else. -/
theorem settledByte_settle {a : Nat} {s : State} (h : settledByte s a = none) (b : Byte) (d x : Nat) :
    settledByte { s with stale := s.stale.write a b, draws := d } x
      = if x = a then some b else settledByte s x := by
  obtain ⟨hmem, -⟩ := Option.or_eq_none_iff.1 h
  simp only [settledByte, Memory.read_write]
  by_cases hx : x = a
  · rw [if_pos hx, if_pos hx, hx, hmem, Option.none_or]
  · rw [if_neg hx, if_neg hx]

/-- R60: what a host read returns is settled from then on. -/
theorem settledByte_peekByte (a : Nat) (s : State) :
    settledByte (peekByte a s).2 a = some (peekByte a s).1 := by
  rcases peekByte_spec a s with ⟨hb, hs⟩ | ⟨hnone, hb, hs⟩
  · rw [hs, hb]
  · rw [hs, hb, settledByte_settle hnone, if_pos rfl]

section

variable {s : State} {a : Nat} (ha : a < memBytes s.cfg) (hz : ¬ (s.status.busy = true ∧ OutputByte s a))
include ha hz

theorem hostMemRd_inside : hostMemRd a s = .next (reply (.byte (peekByte a s).1) (peekByte a s).2) := by
  rw [hostMemRd, if_neg (Nat.not_le.2 ha), if_neg hz]

theorem hostMemRd_settled {b : Byte} (h : settledByte s a = some b) :
    hostMemRd a s = .next (reply (.byte b) s) := by
  rw [hostMemRd_inside ha hz, peekByte_of_settled h]

/-- R50, 93 item 8: the first read of a byte that is settled nowhere. -/
theorem hostMemRd_free (h : settledByte s a = none) :
    hostMemRd a s = .next (reply (.byte (Config.freeByte s.draws))
      { s with stale := s.stale.write a (Config.freeByte s.draws), draws := s.draws + 1 }) := by
  rw [hostMemRd_inside ha hz]
  rcases peekByte_spec a s with ⟨hb, -⟩ | ⟨-, hb, hs⟩
  · rw [h] at hb
    cases hb
  · rw [hb, hs]

end

/-- Settles O47: a settled byte is replied as it stands, and any other is drawn and settled. -/
theorem hostMemoryRead : Obligations.HostMemoryRead := by
  intro s a ps hn hp
  rw [step_hostOp hn hp, hostOp]
  refine ⟨fun ha => if_pos ha, fun ha hz => ?_⟩
  have hsettled {b : Byte} :=
    hostMemRd_settled (s := { s with turns := s.turns.tail, prog := ps }) ha hz (b := b)
  have hfree := hostMemRd_free (s := { s with turns := s.turns.tail, prog := ps }) ha hz
  refine ⟨fun b hb => hsettled hb, fun hnone => ?_⟩
  have hset (x : Nat) := settledByte_settle hnone (Config.freeByte s.draws) (s.draws + 1) x
  exact ⟨_, _, hfree hnone, (hset a).trans (if_pos rfl), fun x hx => (hset x).trans (if_neg hx), rfl⟩

theorem peekByte_kept (a : Nat) (s : State) :
    (peekByte a s).2.prog = s.prog ∧ (peekByte a s).2.replies = s.replies := by
  rcases peekByte_spec a s with ⟨-, h⟩ | ⟨-, -, h⟩
  · exact ⟨by rw [h], by rw [h]⟩
  · exact ⟨by rw [h], by rw [h]⟩

/-- A host read that goes on: the next state is that of `peekByte`, with its byte among the replies. -/
theorem step_memRd_next {s t : State} {a : Nat} {ps : List HostOp} (hn : nextTurn s = .host)
    (hp : s.prog = .memRd a :: ps) (h : step s = .next t) :
    ∃ b, t.replies = .byte b :: s.replies ∧ t.prog = ps ∧ settledByte t a = some b ∧
      ∀ c, settledByte s a = some c → b = c := by
  rw [step_hostOp hn hp] at h
  cases hostOp_next _ _ _ h with
  | memRd _ ha hz =>
    obtain ⟨hprog, hreplies⟩ := peekByte_kept a { s with turns := s.turns.tail, prog := ps }
    refine ⟨_, by rw [reply_replies, hreplies], by rw [reply_prog, hprog], settledByte_peekByte a _,
      fun c hc => ?_⟩
    have hpeek := peekByte_of_settled (s := { s with turns := s.turns.tail, prog := ps }) hc
    rw [hpeek]

/-- Settles O48: the first read settles the byte that the second one finds. -/
theorem hostReadIdempotent : Obligations.HostReadIdempotent := by
  intro s t u a ps hn hp hst hn' htu
  obtain ⟨b, hreplies, hprog, hsettled, -⟩ := step_memRd_next hn hp hst
  obtain ⟨b', hreplies', -, -, hsame⟩ := step_memRd_next hn' hprog htu
  obtain rfl : b' = b := hsame b hsettled
  exact ⟨b', by rw [hreplies', hreplies]⟩

end Sys2Proof.Machine
end

section
/-!
Buffer memory and the commands: which descriptors fail a check and with which result, when an input byte that
was never written stops a command, and which bytes a command leaves alone (spec/20_memory.md R51 to R53, R58;
spec/41_scatter.md R126, R127; spec/42_gather.md R156, R157; spec/60_exceptions.md R183 steps 5 to 7).
-/

namespace Sys2Proof.Machine

/-! ### Checks that stop a command (R15) -/

section

variable {α β : Type} {x : Except Stop α} {f : α → Except Stop β} {e : Stop}

theorem bind_error_of_error (h : x = .error e) : (x >>= f) = .error e :=
  (except_bind_error_iff x f e).2 (.inl h)

theorem bind_error_of_ok {a : α} (h : x = .ok a) (hf : f a = .error e) : (x >>= f) = .error e :=
  (except_bind_error_iff x f e).2 (.inr ⟨a, h, hf⟩)

end

theorem require_of {p : Prop} [Decidable p] (h : p) (k : ResultKind) (info : BitVec 8) :
    require p k info = .ok () := if_pos h

/-- The region `r`, or a piece's region, is not in memory (R51, R183 step 5). -/
def RegionOutside (n : Nat) (r : Region) (s : State) : Prop :=
  ¬ r.InMem s.cfg ∨ ∃ p : Fin 8, p.val < n ∧ ¬ (pieceRegion s p).InMem s.cfg

/-- A container is smaller than the pieces (R126, R127, R183 step 6). -/
def ContainerSmall (n plen : Nat) (s : State) : Prop :=
  ∃ p : Fin 8, p.val < n ∧ (s.psize[p]).toNat < plen

/-- A container overlaps the input or another container (R126, R127, R183 step 7). -/
def ContainerOverlap (n : Nat) (s : State) : Prop :=
  (∃ p : Fin 8, p.val < n ∧ (pieceRegion s p).Overlap (srcRegion s)) ∨
    ∃ p q : Fin 8, p.val < q.val ∧ q.val < n ∧ (pieceRegion s p).Overlap (pieceRegion s q)

/-- A piece overlaps the output (R156, R157, R183 step 7). -/
def OutputOverlap (n : Nat) (s : State) : Prop :=
  ∃ p : Fin 8, p.val < n ∧ (pieceRegion s p).Overlap (dstRegion s)

theorem not_inMem_iff (n : Nat) (r : Region) (s : State) :
    ¬ (r.InMem s.cfg ∧ ∀ p : Fin 8, p.val < n → (pieceRegion s p).InMem s.cfg) ↔ RegionOutside n r s := by
  rw [not_and_or, not_forall]
  simp only [not_forall, exists_prop, RegionOutside]

theorem not_fits_iff (n plen : Nat) (s : State) :
    ¬ (∀ p : Fin 8, p.val < n → plen ≤ (s.psize[p]).toNat) ↔ ContainerSmall n plen s := by
  simp only [not_forall, exists_prop, Nat.not_le, ContainerSmall]

theorem not_apart_iff (n : Nat) (s : State) :
    ¬ ((∀ p : Fin 8, p.val < n → ¬ (pieceRegion s p).Overlap (srcRegion s)) ∧
      ∀ p q : Fin 8, p.val < q.val → q.val < n → ¬ (pieceRegion s p).Overlap (pieceRegion s q)) ↔
    ContainerOverlap n s := by
  rw [not_and_or]
  simp only [not_forall, exists_prop, not_not, ContainerOverlap]

theorem not_outputApart_iff (n : Nat) (s : State) :
    ¬ (∀ p : Fin 8, p.val < n → ¬ (pieceRegion s p).Overlap (dstRegion s)) ↔ OutputOverlap n s := by
  simp only [not_forall, exists_prop, not_not, OutputOverlap]

/-! ### SCATTER and PERMUTE: the three checks in order -/

/-- R183 steps 5 to 7: the first check that fails gives the result. -/
theorem checkContainers_error_iff (n plen : Nat) (s : State) (e : Stop) :
    checkContainers n plen s = .error e ↔
      (RegionOutside n (srcRegion s) s ∧ e = .raised .descriptorError 1) ∨
      (¬ RegionOutside n (srcRegion s) s ∧ ContainerSmall n plen s ∧ e = .raised .descriptorError 2) ∨
      (¬ RegionOutside n (srcRegion s) s ∧ ¬ ContainerSmall n plen s ∧ ContainerOverlap n s ∧
        e = .raised .descriptorError 3) := by
  rw [← not_inMem_iff, ← not_fits_iff, ← not_apart_iff, not_not, not_not]
  simp only [checkContainers, except_bind_error_iff, require_error_iff, require_ok_iff, exists_const,
    and_or_left]

theorem scatterEffect_of_check {n : Nat} {s : State} {e : Stop}
    (h : checkContainers n (pieceLen n (hdrSize + s.srcLen.toNat)) s = .error e) :
    scatterEffect n n s = .error e :=
  bind_error_of_ok (require_of rfl _ _) (bind_error_of_error h)

theorem permuteEffect_of_check {n : Nat} {s : State} {e : Stop}
    (h : checkContainers n (pieceLen n s.srcLen.toNat) s = .error e) : permuteEffect n n s = .error e :=
  bind_error_of_ok (require_of rfl _ _) (bind_error_of_error h)

/-- Settles O28: the checks are `checkContainers`, for both commands. -/
theorem containerErrors : Obligations.ContainerErrors := by
  intro s n hn c hc outside small overlap reports
  have stops {info : BitVec 8} (h : checkContainers n (pieceLen n c.2) (loadMasks n s)
      = .error (.raised .descriptorError info)) : reports info := by
    simp only [List.mem_cons, List.not_mem_nil, or_false] at hc
    rcases hc with rfl | rfl
    · exact withMasks_raised hn (scatterEffect_of_check h)
    · exact withMasks_raised hn (permuteEffect_of_check h)
  have first (e : Stop) := (checkContainers_error_iff n (pieceLen n c.2) (loadMasks n s) e).2
  exact ⟨fun hout => stops (first _ (.inl ⟨hout, rfl⟩)),
    fun hin hsmall => stops (first _ (.inr (.inl ⟨hin, hsmall, rfl⟩))),
    fun hin hfit hover => stops (first _ (.inr (.inr ⟨hin, hfit, hover, rfl⟩)))⟩

/-! ### GATHER and UNPERMUTE: the checks in order -/

section

variable {n : Nat} {s : State}

theorem checkInMem_of_outside (h : RegionOutside n (dstRegion s) s) :
    checkInMem n s = .error (.raised .descriptorError 1) := if_neg ((not_inMem_iff n _ s).2 h)

theorem checkInMem_of_inMem (h : ¬ RegionOutside n (dstRegion s) s) : checkInMem n s = .ok () :=
  if_pos (not_not.1 fun hc => h ((not_inMem_iff n _ s).1 hc))

theorem checkApart_of_overlap (h : OutputOverlap n s) :
    checkApart n s = .error (.raised .descriptorError 3) := if_neg ((not_outputApart_iff n s).2 h)

variable (heq : ∀ p : Fin 8, p.val < n → s.psize[p] = s.psize[(0 : Fin 8)])
include heq

theorem checkEqualLengths_of_equal : checkEqualLengths n s = .ok () := require_of heq _ _

theorem gatherEffect_of_outside (h : RegionOutside n (dstRegion s) s) :
    gatherEffect n n s = .error (.raised .descriptorError 1) :=
  bind_error_of_ok (require_of rfl _ _) <| bind_error_of_ok (checkEqualLengths_of_equal heq) <|
    bind_error_of_error (checkInMem_of_outside h)

theorem gatherEffect_of_overlap (hin : ¬ RegionOutside n (dstRegion s) s) (h : OutputOverlap n s) :
    gatherEffect n n s = .error (.raised .descriptorError 3) :=
  bind_error_of_ok (require_of rfl _ _) <| bind_error_of_ok (checkEqualLengths_of_equal heq) <|
    bind_error_of_ok (checkInMem_of_inMem hin) <| bind_error_of_error (checkApart_of_overlap h)

theorem unpermuteEffect_of_outside (h : RegionOutside n (dstRegion s) s) :
    unpermuteEffect n n s = .error (.raised .descriptorError 1) :=
  bind_error_of_ok (require_of rfl _ _) <| bind_error_of_ok (checkEqualLengths_of_equal heq) <|
    bind_error_of_error (checkInMem_of_outside h)

theorem unpermuteEffect_of_small (hin : ¬ RegionOutside n (dstRegion s) s)
    (h : s.dstSize.toNat < n * (s.psize[(0 : Fin 8)]).toNat) :
    unpermuteEffect n n s = .error (.raised .descriptorError 2) :=
  bind_error_of_ok (require_of rfl _ _) <| bind_error_of_ok (checkEqualLengths_of_equal heq) <|
    bind_error_of_ok (checkInMem_of_inMem hin) <| require_bind_of_not (Nat.not_le.2 h) _ _ _

theorem unpermuteEffect_of_overlap (hin : ¬ RegionOutside n (dstRegion s) s)
    (hfit : n * (s.psize[(0 : Fin 8)]).toNat ≤ s.dstSize.toNat) (h : OutputOverlap n s) :
    unpermuteEffect n n s = .error (.raised .descriptorError 3) :=
  bind_error_of_ok (require_of rfl _ _) <| bind_error_of_ok (checkEqualLengths_of_equal heq) <|
    bind_error_of_ok (checkInMem_of_inMem hin) <| bind_error_of_ok (require_of hfit _ _) <|
    bind_error_of_error (checkApart_of_overlap h)

end

/-- Settles O29: each command raises the result of its first check that fails. -/
theorem outputRegionErrors : Obligations.OutputRegionErrors := by
  intro s n hn heq outside small overlap reports
  have raised {i : Instr} {f : State → Except Stop State} {info : BitVec 8}
      (hi : exec i s = withMasks n s f)
      (h : f (loadMasks n s) = .error (.raised .descriptorError info)) : reports i info := by
    obtain ⟨t, ht, hrest⟩ := withMasks_raised hn h
    exact ⟨t, hi.trans ht, hrest⟩
  have hgather : exec (.gather n n) s = withMasks n s (gatherEffect n n) := rfl
  have hunpermute : exec (.unpermute n n) s = withMasks n s (unpermuteEffect n n) := rfl
  refine ⟨fun hout => ⟨?_, ?_⟩, fun hin hover => ?_, fun hin hsmall => ?_, fun hin hfit hover => ?_⟩
  · exact raised hgather (gatherEffect_of_outside heq hout)
  · exact raised hunpermute (unpermuteEffect_of_outside heq hout)
  · exact raised hgather (gatherEffect_of_overlap heq hin hover)
  · exact raised hunpermute (unpermuteEffect_of_small heq hin hsmall)
  · exact raised hunpermute (unpermuteEffect_of_overlap heq hin (Nat.not_lt.1 hfit) hover)

/-! ### An input byte never written since reset (R52) -/

theorem Holds.read_isSome {m : Memory} {r : Region} {bs : Bytes} (h : Holds m r bs) {a : Nat}
    (ha : r.Has a) : (m.read a).isSome := by
  obtain ⟨hlen, hread⟩ := h
  obtain ⟨i, rfl⟩ := Nat.exists_eq_add_of_le ha.1
  have hi : i < r.len := Nat.lt_of_add_lt_add_left ha.2
  rw [hread i hi, List.getElem?_eq_getElem (hlen ▸ hi)]
  rfl

theorem readRegion_of_unwritten {s : State} {r : Region} {a : Nat} (ha : r.Has a)
    (hm : s.mem.read a = none) : ∃ f, readRegion s r = .error (.fault f) := by
  cases h : readRegion s r with
  | ok bs =>
    have hsome := Holds.read_isSome ((readRegion_ok_iff s r bs).1 h) ha
    rw [hm] at hsome
    cases hsome
  | error e =>
    obtain ⟨b, rfl, -, -⟩ := readRegion_error s r e h
    exact ⟨_, rfl⟩

theorem readPieces_of_unwritten {s : State} {plen : Nat} {ps : List (Fin 8)} {p : Fin 8} (hp : p ∈ ps)
    {a : Nat} (ha : Region.Has { base := (s.paddr[p]).toNat, len := plen } a)
    (hm : s.mem.read a = none) : ∃ f, readPieces s plen ps = .error (.fault f) := by
  induction ps with
  | nil => cases hp
  | cons q ps ih =>
    cases hq : readRegion s { base := (s.paddr[q]).toNat, len := plen } with
    | error e =>
      obtain ⟨b, rfl, -, -⟩ := readRegion_error _ _ _ hq
      exact ⟨_, bind_error_of_error hq⟩
    | ok x =>
      rcases List.mem_cons.1 hp with rfl | hp'
      · obtain ⟨f, hf⟩ := readRegion_of_unwritten ha hm
        rw [hq] at hf
        cases hf
      · obtain ⟨f, hf⟩ := ih hp'
        exact ⟨f, bind_error_of_ok hq (bind_error_of_error hf)⟩

theorem scatterEffect_of_readError {n : Nat} {s : State} {e : Stop}
    (hr : ContainersReady n (hdrSize + s.srcLen.toNat) s) (h : readRegion s (srcRegion s) = .error e) :
    scatterEffect n n s = .error e :=
  bind_error_of_ok (require_of rfl _ _) <|
    bind_error_of_ok ((checkContainers_ok_iff _ _ _ ()).2 hr) <| bind_error_of_error h

theorem permuteEffect_of_readError {n : Nat} {s : State} {e : Stop}
    (hr : ContainersReady n s.srcLen.toNat s) (h : readRegion s (srcRegion s) = .error e) :
    permuteEffect n n s = .error e :=
  bind_error_of_ok (require_of rfl _ _) <|
    bind_error_of_ok ((checkContainers_ok_iff _ _ _ ()).2 hr) <| bind_error_of_error h

theorem gatherEffect_of_readError {n : Nat} {s : State} {e : Stop} (hr : PiecesReady n s)
    (h : readPieces s (s.psize[(0 : Fin 8)]).toNat (slots n) = .error e) :
    gatherEffect n n s = .error e := by
  obtain ⟨heq, hdst, hin, hapart⟩ := hr
  exact bind_error_of_ok (require_of rfl _ _) <| bind_error_of_ok (require_of heq _ _) <|
    bind_error_of_ok (require_of ⟨hdst, hin⟩ _ _) <| bind_error_of_ok (require_of hapart _ _) <|
    bind_error_of_error h

theorem unpermuteEffect_of_readError {n : Nat} {s : State} {e : Stop} (hr : PiecesReady n s)
    (hfit : n * (s.psize[(0 : Fin 8)]).toNat ≤ s.dstSize.toNat)
    (h : readPieces s (s.psize[(0 : Fin 8)]).toNat (slots n) = .error e) :
    unpermuteEffect n n s = .error e := by
  obtain ⟨heq, hdst, hin, hapart⟩ := hr
  exact bind_error_of_ok (require_of rfl _ _) <| bind_error_of_ok (require_of heq _ _) <|
    bind_error_of_ok (require_of ⟨hdst, hin⟩ _ _) <| bind_error_of_ok (require_of hfit _ _) <|
    bind_error_of_ok (require_of hapart _ _) <| bind_error_of_error h

/-- A command that ends the run does so at an input byte that holds no value: `exec_fault`. -/
theorem exec_unwritten {i : Instr} {s : State} {f : Fault} (h : exec i s = .fault f) :
    ∃ a, exec i s = .fault (.unwrittenRead a) ∧ s.mem.read a = none ∧
      ∃ r ∈ inputRegionsOf s i, r.Has a := by
  obtain ⟨r, hr, a, ha, hm, rfl⟩ := exec_fault i s f h
  exact ⟨a, h, hm, r, hr, ha⟩

/-- Settles O38: with the checks before it passed, the MemRead is what stops the command. -/
theorem unwrittenInputFaults : Obligations.UnwrittenInputFaults := by
  intro s n hn faults
  have stops {i : Instr} {f : State → Except Stop State} (g : Fault) (hi : exec i s = withMasks n s f)
      (h : f (loadMasks n s) = .error (.fault g)) : faults i :=
    exec_unwritten (hi.trans ((withMasks_fault_iff n s f g).2 ⟨hn, h⟩))
  refine ⟨fun a ha hm => ?_, fun p a hp ha hm hr => ?_⟩
  · obtain ⟨g, hg⟩ := readRegion_of_unwritten (s := loadMasks n s) ha hm
    exact ⟨fun hr => stops g rfl (scatterEffect_of_readError hr hg),
      fun hr => stops g rfl (permuteEffect_of_readError hr hg)⟩
  · rw [pieceRegion_eq hr.1 p hp] at ha
    obtain ⟨g, hg⟩ := readPieces_of_unwritten (s := loadMasks n s) ((mem_slots n p).2 hp) ha hm
    exact ⟨stops g rfl (gatherEffect_of_readError hr hg),
      fun hfit => stops g rfl (unpermuteEffect_of_readError hr hfit hg)⟩

/-! ### Memory frames (R53, R58) -/

/-- The bytes that a successful command may write, by what it reports. -/
def writtenRegions (s t : State) : Instr → List Region
  | .genmask _ => []
  | .scatter n _ => filledRegions n (pieceLen n (hdrSize + s.srcLen.toNat)) s
  | .gather _ _ => [{ base := s.dstAddr.toNat, len := t.dstSize.toNat }]
  | .permute n _ => filledRegions n (pieceLen n s.srcLen.toNat) s
  | .unpermute n _ => [{ base := s.dstAddr.toNat, len := n * (s.psize[(0 : Fin 8)]).toNat }]

theorem Outputs.keptOutside {i : Instr} {s u : State} (hn : LegalCount (pieceCount i))
    (h : Outputs s i u) : KeptOutside (writtenRegions s u i) s u := by
  cases h with
  | none n => exact fun _ _ => ⟨rfl, rfl⟩
  | scatter n pl d hr hpl hd =>
    have hlen : (frame s.cfg pl d).length = hdrSize + s.srcLen.toNat := frame_length_of_holds hpl s.cfg d
    rw [writtenRegions, ← hlen]
    exact (storePieces_written hn (by rwa [hlen])).outside
  | permute n f hr hf =>
    have hlen : f.length = s.srcLen.toNat := hf.1
    rw [writtenRegions, ← hlen]
    exact (storePieces_written hn (by rwa [hlen])).outside
  | gather n xs pl hr hxs hlen hv hfit =>
    obtain ⟨-, rfl, -⟩ := (verify_ok_iff _ _ _).1 hv
    have hw := storeOutput_written (s := s) ((trimmed_length_le _ _).trans hfit)
    rw [writtenRegions, hw.dstSize]
    exact hw.outside
  | unpermute n xs hr hfit hxs =>
    have hlen : (Machine.unpermute n (s.psize[(0 : Fin 8)]).toNat xs).length
        = n * (s.psize[(0 : Fin 8)]).toNat := unpermute_length _ _ _
    rw [writtenRegions, ← hlen]
    exact (storeOutput_written (by rwa [hlen])).outside

/-- A command that answers a next state writes nothing outside those bytes, and nothing at all when it
reports a failure. -/
theorem exec_keptOutside {i : Instr} {s t : State} (h : exec i s = .next t) :
    KeptOutside (writtenRegions s t i) s t := by
  rcases exec_next i s t h with ⟨-, rfl⟩ | ⟨hn, u, hu, rfl⟩ | ⟨-, k, info, -, rfl⟩
  · exact fun _ _ => ⟨rfl, rfl⟩
  · have hkept := hu.keptOutside hn
    cases i <;> exact hkept
  · exact fun _ _ => ⟨rfl, rfl⟩

/-- GENMASK writes no memory (R104). -/
theorem exec_genmask_mem {n : Nat} {s t : State} (h : exec (.genmask n) s = .next t) :
    t.mem = s.mem ∧ t.stale = s.stale := by
  rcases exec_next _ s t h with ⟨-, rfl⟩ | ⟨-, u, hu, rfl⟩ | ⟨-, k, info, -, rfl⟩
  · exact ⟨rfl, rfl⟩
  · cases hu
    exact ⟨rfl, rfl⟩
  · exact ⟨rfl, rfl⟩

/-- Settles O36: the regions that each command may write. -/
theorem memoryFrame : Obligations.MemoryFrame := fun _ _ _ _ =>
  ⟨exec_genmask_mem, exec_keptOutside, exec_keptOutside, exec_keptOutside, exec_keptOutside⟩

end Sys2Proof.Machine
end

section
/-!
The command word as four fields, decode and encode as inverses and the rows of the opcode table
(spec/30_encoding.md R70 to R73, R80); the digest rendering told apart byte by byte (R78), the layout of the
header (R76), and POLL (R82).
-/

namespace Sys2Proof.Machine

/-! ### The fields of a command word (R70, R71) -/

/-- R70: the word with the fields RSV, K, N and OP. -/
def fieldWord (rsv : BitVec 52) (k n op : BitVec 4) : Word := rsv ++ k ++ n ++ op

theorem bitVec_append_inj {m n : Nat} {x x' : BitVec m} {y y' : BitVec n} :
    x ++ y = x' ++ y' ↔ x = x' ∧ y = y' := by
  refine ⟨fun h => ⟨?_, ?_⟩, fun ⟨hx, hy⟩ => hx ▸ hy ▸ rfl⟩
  · rw [← BitVec.extractLsb'_append_eq_left (a := x) (b := y), h, BitVec.extractLsb'_append_eq_left]
  · rw [← BitVec.extractLsb'_append_eq_right (a := x) (b := y), h, BitVec.extractLsb'_append_eq_right]

theorem fieldWord_inj {rsv rsv' : BitVec 52} {k k' n n' op op' : BitVec 4} :
    fieldWord rsv k n op = fieldWord rsv' k' n' op' ↔ rsv = rsv' ∧ k = k' ∧ n = n' ∧ op = op' := by
  have hfields : rsv ++ k ++ n ++ op = rsv' ++ k' ++ n' ++ op' ↔
      ((rsv = rsv' ∧ k = k') ∧ n = n') ∧ op = op' := by
    rw [bitVec_append_inj, bitVec_append_inj, bitVec_append_inj]
  exact hfields.trans (by simp only [and_assoc])

theorem fieldWord_and (rsv rsv' : BitVec 52) (k k' n n' op op' : BitVec 4) :
    fieldWord rsv k n op &&& fieldWord rsv' k' n' op'
      = fieldWord (rsv &&& rsv') (k &&& k') (n &&& n') (op &&& op') := by
  have hfields : (rsv ++ k ++ n ++ op) &&& (rsv' ++ k' ++ n' ++ op')
      = (rsv &&& rsv') ++ (k &&& k') ++ (n &&& n') ++ (op &&& op') := by
    rw [BitVec.and_append, BitVec.and_append, BitVec.and_append]
  exact hfields

/-- R71: a word is put together from its fields. -/
theorem fieldWord_of_fields (w : Word) :
    fieldWord (rsvField w) (w.extractLsb' 8 4) (w.extractLsb' 4 4) (opField w) = w := by
  have hnop : w.extractLsb' 4 4 ++ w.extractLsb' 0 4 = w.extractLsb' 0 8 :=
    BitVec.extractLsb'_append_extractLsb'_eq_extractLsb' rfl
  have hlow : w.extractLsb' 8 4 ++ w.extractLsb' 0 8 = w.extractLsb' 0 12 :=
    BitVec.extractLsb'_append_extractLsb'_eq_extractLsb' rfl
  have hall : w.extractLsb' 12 52 ++ w.extractLsb' 0 12 = w.extractLsb' 0 64 :=
    BitVec.extractLsb'_append_extractLsb'_eq_extractLsb' rfl
  rw [fieldWord, rsvField, opField, BitVec.append_assoc, BitVec.append_assoc]
  simp [hnop, hlow, hall]

/-- The fields of `fieldWord` are what it is made of (R71). -/
theorem fields_fieldWord (rsv : BitVec 52) (k n op : BitVec 4) :
    rsvField (fieldWord rsv k n op) = rsv ∧ kField (fieldWord rsv k n op) = k.toNat ∧
    nField (fieldWord rsv k n op) = n.toNat ∧ opField (fieldWord rsv k n op) = op := by
  obtain ⟨hrsv, hk, hn, hop⟩ := fieldWord_inj.1 (fieldWord_of_fields (fieldWord rsv k n op))
  exact ⟨hrsv, congrArg BitVec.toNat hk, congrArg BitVec.toNat hn, hop⟩

/-- R70: the canonical word has RSV 0 and its operands as the other fields. -/
theorem commandWord_eq_fieldWord (op n k : BitVec 4) :
    commandWord op.toNat n.toNat k.toNat = fieldWord 0 k n op := by
  apply BitVec.eq_of_getLsbD_eq
  intro i hi
  have hop := op.getLsbD_of_ge i
  have hn := n.getLsbD_of_ge (i - 4)
  have hk := k.getLsbD_of_ge (i - 8)
  simp only [commandWord, fieldWord, BitVec.ofNat_toNat, BitVec.getLsbD_or, BitVec.getLsbD_shiftLeft,
    BitVec.getLsbD_setWidth, BitVec.getLsbD_append]
  grind

/-! ### Decode and encode (R70 to R73, R80) -/

/-- R72: OP of the command's row. -/
def rowOp : Instr → BitVec 4
  | .genmask _ => 1
  | .scatter _ _ => 2
  | .gather _ _ => 3
  | .permute _ _ => 4
  | .unpermute _ _ => 5

/-- R71, R73: the K field of the command's word, 0 for GENMASK. -/
def descriptorCount : Instr → Nat
  | .genmask _ => 0
  | .scatter _ k | .gather _ k | .permute _ k | .unpermute _ k => k

theorem encode_eq_commandWord (i : Instr) :
    encode i = commandWord (rowOp i).toNat (pieceCount i) (descriptorCount i) := by
  cases i <;> rfl

theorem wellFormed_iff (i : Instr) : i.WellFormed ↔ pieceCount i < 16 ∧ descriptorCount i < 16 := by
  cases i with
  | genmask n => exact ⟨fun h => ⟨h, Nat.zero_lt_succ 15⟩, And.left⟩
  | scatter n k | gather n k | permute n k | unpermute n k => exact Iff.rfl

/-- R72: a word decodes to the command whose row and operands its fields name, when RSV is 0. -/
theorem decode_eq_ok_iff (w : Word) (i : Instr) :
    decode w = .ok i ↔
      rsvField w = 0 ∧ opField w = rowOp i ∧ nField w = pieceCount i ∧ kField w = descriptorCount i := by
  constructor
  · intro h
    rw [decode] at h
    split at h
    case isTrue => cases h
    case isFalse hrsv =>
      have hrsv0 : rsvField w = 0 := not_not.1 hrsv
      split at h
      case h_1 hop =>
        split at h
        case isTrue hk =>
          cases h
          exact ⟨hrsv0, BitVec.eq_of_toNat_eq hop, rfl, hk⟩
        case isFalse => cases h
      case h_6 => cases h
      all_goals
        rename_i hop
        cases h
        exact ⟨hrsv0, BitVec.eq_of_toNat_eq hop, rfl, rfl⟩
  · rintro ⟨hrsv, hop, hn, hk⟩
    rw [decode, if_neg (not_not_intro hrsv), hop, hn, hk]
    cases i <;> rfl

/-- R70 to R73: decode and encode are inverse to each other, between legal words and well-formed commands. -/
theorem decode_eq_ok_iff_encode (w : Word) (i : Instr) :
    decode w = .ok i ↔ i.WellFormed ∧ encode i = w := by
  rw [decode_eq_ok_iff, wellFormed_iff, encode_eq_commandWord]
  constructor
  · rintro ⟨hrsv, hop, hn, hk⟩
    rw [← hn, ← hk, ← hop]
    refine ⟨⟨BitVec.isLt _, BitVec.isLt _⟩, ?_⟩
    calc commandWord (opField w).toNat (nField w) (kField w)
        = fieldWord (rsvField w) (w.extractLsb' 8 4) (w.extractLsb' 4 4) (opField w) := by
          rw [hrsv]
          exact commandWord_eq_fieldWord _ _ _
      _ = w := fieldWord_of_fields w
  · rintro ⟨⟨hn, hk⟩, rfl⟩
    have hword := commandWord_eq_fieldWord (rowOp i) (BitVec.ofNatLT _ hn) (BitVec.ofNatLT _ hk)
    simp only [BitVec.toNat_ofNatLT] at hword
    obtain ⟨hrsvW, hkW, hnW, hopW⟩ :=
      fields_fieldWord 0 (BitVec.ofNatLT _ hk) (BitVec.ofNatLT _ hn) (rowOp i)
    rw [hword]
    exact ⟨hrsvW, hopW, hnW, hkW⟩

/-- Settles O1: a well-formed command is the one its word decodes to. -/
theorem decodeOfEncode : Obligations.DecodeOfEncode :=
  fun i hi => (decode_eq_ok_iff_encode (encode i) i).2 ⟨hi, rfl⟩

/-- Settles O2: a legal word is put together from the fields it decodes by. -/
theorem encodeOfDecode : Obligations.EncodeOfDecode :=
  fun w i => (decode_eq_ok_iff_encode w i).1

/-- Settles O3: each of the words is the word of a well-formed command. -/
theorem specWordsDecode : Obligations.SpecWordsDecode :=
  ⟨decodeOfEncode (.genmask 3) (by decide), decodeOfEncode (.scatter 2 2) (by decide),
    decodeOfEncode (.scatter 2 3) (by decide), decodeOfEncode (.gather 2 2) (by decide),
    decodeOfEncode (.permute 4 4) (by decide), decodeOfEncode (.unpermute 4 4) (by decide)⟩

/-! ### The rows of the opcode table (R72) -/

/-- A mask that keeps RSV and OP whole (R72). -/
theorem and_fieldMask (w : Word) (k n : BitVec 4) :
    w &&& fieldWord (BitVec.allOnes 52) k n (BitVec.allOnes 4)
      = fieldWord (rsvField w) (w.extractLsb' 8 4 &&& k) (w.extractLsb' 4 4 &&& n) (opField w) := by
  conv_lhs => rw [← fieldWord_of_fields w]
  rw [fieldWord_and, BitVec.and_allOnes, BitVec.and_allOnes]

/-- R72: the `match` value of a row is its OP with every other field 0. -/
theorem rowMatch_eq_fieldWord (i : Instr) : i.rowMatch = fieldWord 0 0 0 (rowOp i) := by
  have hrow : ∀ op : BitVec 4, op.setWidth 64 = fieldWord 0 0 0 op := by decide
  rw [← hrow]
  cases i <;> rfl

/-- The row of GENMASK, whose mask leaves N alone free. -/
theorem selects_genmask_iff (w : Word) :
    w &&& 0xFFFFFFFFFFFFFF0F = 0x1 ↔ ∃ n, decode w = .ok (.genmask n) := by
  have hmask : (0xFFFFFFFFFFFFFF0F : Word)
      = fieldWord (BitVec.allOnes 52) (BitVec.allOnes 4) 0 (BitVec.allOnes 4) := by decide
  have hmatch : (0x1 : Word) = fieldWord 0 0 0 1 := rowMatch_eq_fieldWord (.genmask 0)
  have hcount : w.extractLsb' 8 4 = 0 ↔ kField w = 0 := BitVec.toNat_inj.symm
  rw [hmask, hmatch, and_fieldMask, fieldWord_inj, BitVec.and_allOnes, hcount]
  simp [decode_eq_ok_iff, rowOp, pieceCount, descriptorCount, and_comm]

/-- The four rows whose mask leaves N and K free. -/
theorem selects_pair_iff (w : Word) (op : PairOp) :
    w &&& 0xFFFFFFFFFFFFF00F = (op.instr 0 0).rowMatch ↔ ∃ n k, decode w = .ok (op.instr n k) := by
  have hmask : (0xFFFFFFFFFFFFF00F : Word)
      = fieldWord (BitVec.allOnes 52) 0 0 (BitVec.allOnes 4) := by decide
  rw [hmask, rowMatch_eq_fieldWord, and_fieldMask, fieldWord_inj]
  simp only [decode_eq_ok_iff]
  cases op with
  | scatter | gather | permute | unpermute =>
    simp [PairOp.instr, rowOp, pieceCount, descriptorCount]

/-- Settles O4: the row that a word selects is that of the command its fields name. -/
theorem rowSelection : Obligations.RowSelection := fun w =>
  ⟨selects_genmask_iff w, selects_pair_iff w .scatter, selects_pair_iff w .gather,
    selects_pair_iff w .permute, selects_pair_iff w .unpermute⟩

/-! ### Digests told apart by their rendering (R78, R155) -/

theorem digitCode_injective (c : HexCase) : Function.Injective (digitCode c) := by
  intro v v' h
  have hletter : 0x41 ≤ letterCode c := by cases c <;> decide
  grind [digitCode]

theorem hexChar_inj (c : HexCase) {v v' : BitVec 4} (h : hexChar c v = hexChar c v') : v = v' := by
  refine BitVec.eq_of_toNat_eq (digitCode_injective c ?_)
  rw [← toNat_hexChar, h, toNat_hexChar]

theorem byte_eq_of_nibbles {b b' : Byte} (hhigh : b.extractLsb' 4 4 = b'.extractLsb' 4 4)
    (hlow : b.extractLsb' 0 4 = b'.extractLsb' 0 4) : b = b' := by
  have hsplit (x : Byte) : x.extractLsb' 4 4 ++ x.extractLsb' 0 4 = x.extractLsb' 0 8 :=
    BitVec.extractLsb'_append_extractLsb'_eq_extractLsb' rfl
  rw [← BitVec.extractLsb'_eq_self (x := b), ← BitVec.extractLsb'_eq_self (x := b'), ← hsplit, ← hsplit,
    hhigh, hlow]

/-- R16: every bit of a digest is a bit of one of its 32 bytes. -/
theorem getLsbD_eq_digestByte (d : BitVec 256) {i : Nat} (hi : i < 256) :
    d.getLsbD i = (digestByte d (31 - i / 8)).getLsbD (i % 8) := by
  have hplace : 8 * (31 - (31 - i / 8)) + i % 8 = i := by omega
  rw [digestByte, BitVec.getLsbD_extractLsb', hplace]
  simp [Nat.mod_lt]

theorem digest_ext {d d' : BitVec 256} (h : ∀ k < 32, digestByte d k = digestByte d' k) : d = d' := by
  refine BitVec.eq_of_getLsbD_eq fun i hi => ?_
  rw [getLsbD_eq_digestByte d hi, getLsbD_eq_digestByte d' hi, h _ (by omega)]

/-- Settles O17: the two characters of each digest byte give its nibbles back. -/
theorem hexRenderingInjective : Obligations.HexRenderingInjective := by
  intro c d d' h
  refine digest_ext fun k hk => ?_
  obtain ⟨hhigh, hlow⟩ := byteAt_hexDigest c d hk
  obtain ⟨hhigh', hlow'⟩ := byteAt_hexDigest c d' hk
  rw [h] at hhigh hlow
  exact byte_eq_of_nibbles (hexChar_inj c (hhigh.symm.trans hhigh')) (hexChar_inj c (hlow.symm.trans hlow'))

/-! ### The parts of a header (R76) -/

/-- The middle of three byte strings put together (R13). -/
theorem slice_of_append {bs xs ys zs : Bytes} {a b : Nat} (hbs : bs = xs ++ ys ++ zs) (ha : xs.length = a)
    (hb : a + ys.length = b) : slice bs a b = ys := by
  subst hbs ha hb
  simp [slice]

/-- Settles O18: the three parts have the lengths 4, 8 and 64. -/
theorem headerLayout : Obligations.HeaderLayout := by
  intro c pl d
  have hlen := len8_length c.lenOrder (BitVec.ofNat 64 pl.length)
  have hhex := hexDigest_length c.hexCase d
  exact ⟨buildHeader_length c pl d,
    slice_of_append (xs := []) (List.append_assoc ..) rfl (by simp),
    slice_of_append rfl (by simp) (by omega),
    slice_of_append (List.append_nil _).symm (by simp [hlen]) (by omega)⟩

/-! ### POLL (R82) -/

/-- R82: one POLL transaction. -/
theorem hostOp_poll (s : State) :
    hostOp s .poll = .next { s with
      prog := if s.status.busy then .poll :: s.prog else s.prog
      replies := .word (statusWord s.status) :: s.replies } := by
  by_cases hb : s.status.busy = true
  · rw [hostOp, if_pos hb, if_pos hb]
    rfl
  · rw [hostOp, if_neg hb, if_neg hb]
    rfl

/-- Settles O45: POLL is a read of STATUS that puts itself back while BUSY = 1. -/
theorem pollLoops : Obligations.PollLoops := by
  intro s ps hn hp
  exact ⟨statusWord s.status, rfl, (step_hostOp hn hp).trans (hostOp_poll _)⟩

end Sys2Proof.Machine
end

section
/-!
The mask set as a partition of the eight bit positions, the number of bits of each mask and the MASKS register
of every legal N (spec/40_maskgen.md R101 to R103).
-/

namespace Sys2Proof.Machine

/-- Settles O6: `genMasks_getLsbD` for a legal count. -/
theorem maskOwnership : Obligations.MaskOwnership :=
  fun _ _ _ hm _ hb => genMasks_getLsbD hm hb

/-! ### The partition (R102) -/

/-- R102 (a): no bit has two owners. -/
theorem genMasks_and_eq_zero {n m m' : Nat} (hm : m < n) (hm' : m' < n) (hne : m ≠ m') :
    byteAt (genMasks n) m &&& byteAt (genMasks n) m' = 0 := by
  refine BitVec.eq_of_getLsbD_eq fun b hb => ?_
  have hzero : (0 : Byte).getLsbD b = false := BitVec.getLsbD_zero
  rw [BitVec.getLsbD_and, genMasks_getLsbD hm hb, genMasks_getLsbD hm' hb, hzero, Bool.and_eq_false_iff,
    decide_eq_false_iff_not, decide_eq_false_iff_not]
  omega

/-- R102 (b): every bit has an owner, the mask of index `b mod N`. -/
theorem orOver_genMasks {n : Nat} (hn : 0 < n) : orOver n (byteAt (genMasks n)) = 0xFF := by
  refine BitVec.eq_of_getLsbD_eq fun b hb => ?_
  have hone : (0xFF : Byte).getLsbD b = true := (BitVec.getLsbD_allOnes ..).trans (decide_eq_true hb)
  rw [hone, orOver_getLsbD]
  have hm : b % n < n := Nat.mod_lt b hn
  exact ⟨b % n, hm, by rw [genMasks_getLsbD hm hb, decide_eq_true rfl]⟩

/-- R102 (c): MASK[m] owns bit m. -/
theorem genMasks_ne_zero {n m : Nat} (hm : m < n) (hm8 : m < 8) : byteAt (genMasks n) m ≠ 0 := by
  intro h
  have hbit := genMasks_getLsbD hm hm8
  rw [h, decide_eq_true (Nat.mod_eq_of_lt hm)] at hbit
  simp at hbit

/-- The numbers below `k` that leave the remainder `m` are `ceil((k - m) / n)` many. -/
theorem count_mod_eq {n m k : Nat} (hm : m < n) (hk : m ≤ k) :
    k.count (· % n = m) = (k - m + n - 1) / n := by
  have hn : 0 < n := Nat.zero_lt_of_lt hm
  have hcount : k.count (· % n = m) = k / n + if m < k % n then 1 else 0 := by
    simpa only [Nat.ModEq, Nat.mod_eq_of_lt hm] using Nat.count_modEq_card k hn m
  have hk' : n * (k / n) + k % n = k := Nat.div_add_mod k n
  have hr : k % n < n := Nat.mod_lt k hn
  rw [hcount]
  generalize k / n = q, k % n = r at hk' hr
  symm
  split <;> exact Nat.div_eq_of_lt_le (by lia) (by lia)

/-- R102 (d): the bits of MASK[m] are m, m + N, m + 2N, ... below 8. -/
theorem genMasks_popcount {n m : Nat} (hm : m < n) (hm8 : m ≤ 8) :
    ((List.range 8).filter fun b => (byteAt (genMasks n) m).getLsbD b).length = (8 - m + n - 1) / n := by
  have howned : (List.range 8).filter (fun b => (byteAt (genMasks n) m).getLsbD b)
      = (List.range 8).filter fun b => decide (b % n = m) :=
    List.filter_congr fun b hb => genMasks_getLsbD hm (List.mem_range.1 hb)
  rw [howned, ← List.countP_eq_length_filter]
  exact count_mod_eq hm hm8

/-- Settles O7: each bit has the one owner `b mod N`. -/
theorem maskPartition : Obligations.MaskPartition := by
  intro n ⟨hn2, hn8⟩
  exact ⟨fun _ hm _ hm' => genMasks_and_eq_zero hm hm',
    orOver_genMasks (Nat.zero_lt_of_lt hn2),
    fun _ hm => genMasks_ne_zero hm (hm.trans_le hn8),
    fun _ hm => genMasks_popcount hm (hm.le.trans hn8)⟩

/-! ### The MASKS register (R103) -/

/-- R31, R101: the owners of the bits determine MASKS. -/
theorem packMasks_genMasks_eq {n : Nat} {w : Word}
    (h : ∀ m < 8, ∀ b < 8, w.getLsbD (8 * m + b) = decide (m < n ∧ b % n = m)) :
    packMasks (genMasks n) = w := by
  have hmasks : MasksFor n (loadMasks n State.reset) := masksFor_of_masks rfl
  refine BitVec.eq_of_getLsbD_eq fun i hi => ?_
  have hm : i / 8 < 8 := by omega
  have hb : i % 8 < 8 := Nat.mod_lt i (by decide)
  rw [← Nat.div_add_mod i 8, h _ hm _ hb, ← hmasks _ hm _ hb, loadMasks_masks]

/-- Settles O8: each word of the table is checked bit by bit against R101, as R103 does. -/
theorem maskTable : Obligations.MaskTable :=
  ⟨packMasks_genMasks_eq (by decide), packMasks_genMasks_eq (by decide), packMasks_genMasks_eq (by decide),
    packMasks_genMasks_eq (by decide), packMasks_genMasks_eq (by decide), packMasks_genMasks_eq (by decide),
    packMasks_genMasks_eq (by decide)⟩

end Sys2Proof.Machine
end

section
/-!
The forward permutation and the framed payload: which output byte each bit of a row goes to, the pieces of a
byte string, what the permutation of a group keeps, and how a frame parses back
(spec/41_scatter.md R120 to R128; spec/42_gather.md R154, R155).
-/

namespace Sys2Proof.Machine

/-! ### The row a bit comes from and the output byte it goes to (R123) -/

/-- R123: for the bits owned by mask `m`, output byte p takes them from row r exactly when p is the byte that
row r sends them to. -/
theorem sourceRow_eq_iff {n m r p : Nat} (hm : m < n) (hr : r < n) (hp : p < n) :
    (p + n - m) % n = r ↔ p = (r + m) % n := by
  have hback : p + n - m + m = p + n := by omega
  calc (p + n - m) % n = r
      ↔ p + n - m ≡ r [MOD n] := by rw [Nat.ModEq, Nat.mod_eq_of_lt hr]
    _ ↔ p + n - m + m ≡ r + m [MOD n] :=
        ⟨Nat.ModEq.add_right m, Nat.ModEq.add_right_cancel' m⟩
    _ ↔ p = (r + m) % n := by rw [hback, Nat.ModEq, Nat.add_mod_right, Nat.mod_eq_of_lt hp]

theorem sourceRow_target {n m r : Nat} (hm : m < n) (hr : r < n) : ((r + m) % n + n - m) % n = r :=
  (sourceRow_eq_iff hm hr (Nat.mod_lt _ (Nat.zero_lt_of_lt hm))).2 rfl

theorem target_sourceRow {n m p : Nat} (hm : m < n) (hp : p < n) : ((p + n - m) % n + m) % n = p :=
  ((sourceRow_eq_iff hm (Nat.mod_lt _ (Nat.zero_lt_of_lt hm)) hp).1 rfl).symm

theorem LegalCount.pos {n : Nat} (hn : LegalCount n) : 0 < n := Nat.zero_lt_of_lt hn.1

/-- Settles O9: the source row and the target byte of a bit are inverse to each other. -/
theorem forwardBit : Obligations.ForwardBit := by
  intro n rows hn
  have hn0 : 0 < n := hn.pos
  have howner (b : Nat) : b % n < n := Nat.mod_lt b hn0
  refine ⟨fun p _ b hb => permGroup_getLsbD hn0 rows p hb, fun r hr b hb => ?_,
    fun r hr b _ p hp => sourceRow_eq_iff (howner b) hr hp⟩
  rw [permGroup_getLsbD hn0 rows _ hb, sourceRow_target (howner b) hr]

/-! ### The pieces of a byte string (R121, R123 to R125) -/

/-- Settles O11: byte g of a piece is one output byte of group g, whose rows are zero past the end. -/
theorem permutePieces : Obligations.PermutePieces := by
  intro n f hn
  refine ⟨permute_length n f, fun p hp => ?_⟩
  rw [permute_getD hp]
  refine ⟨permutePiece_length n f p, fun g hg b hb => ?_⟩
  rw [byteAt_permutePiece hg, permGroup_getLsbD hn.pos _ p hb]
  rfl

/-! ### The set bits of a group (R128 c) -/

/-- The number of set bits of a byte, as the sum of its bits. -/
theorem setBits_length_eq_sum (x : Byte) :
    ((List.range 8).filter fun b => x.getLsbD b).length
      = ∑ b ∈ Finset.range 8, if x.getLsbD b then 1 else 0 := by
  rw [← Finset.card_filter]
  simp [Finset.card_def, Multiset.range]

/-- The set bits of a group, counted bit position by bit position. -/
theorem sum_setBits_eq (n : Nat) (rows : Nat → Byte) :
    ((List.range n).map fun r => ((List.range 8).filter fun b => (rows r).getLsbD b).length).sum
      = ∑ b ∈ Finset.range 8, ∑ r ∈ Finset.range n, if (rows r).getLsbD b then 1 else 0 := by
  simp only [setBits_length_eq_sum]
  exact Finset.sum_comm (s := Finset.range n)

/-- R123: at each bit position the output bytes are the rows, rotated. -/
theorem sum_permGroup_getLsbD {n : Nat} (hn : 0 < n) (rows : Nat → Byte) {b : Nat} (hb : b < 8) :
    ∑ p ∈ Finset.range n, (if (permGroup n (genMasks n) rows p).getLsbD b then 1 else 0)
      = ∑ r ∈ Finset.range n, if (rows r).getLsbD b then 1 else 0 := by
  have howner : b % n < n := Nat.mod_lt b hn
  have hrange (a : Nat) : a % n ∈ Finset.range n := Finset.mem_range.2 (Nat.mod_lt a hn)
  refine Finset.sum_nbij' (fun p => (p + n - b % n) % n) (fun r => (r + b % n) % n)
    (fun p _ => hrange _) (fun r _ => hrange _) (fun p hp => ?_) (fun r hr => ?_) (fun p _ => ?_)
  · exact target_sourceRow howner (Finset.mem_range.1 hp)
  · exact sourceRow_target howner (Finset.mem_range.1 hr)
  · rw [permGroup_getLsbD hn rows p hb]

/-- Settles O13: counted by bit position, each count is kept. -/
theorem popcountKept : Obligations.PopcountKept := by
  intro n rows hn
  rw [sum_setBits_eq, sum_setBits_eq]
  exact Finset.sum_congr rfl fun b hb => sum_permGroup_getLsbD hn.pos rows (Finset.mem_range.1 hb)

/-! ### Two pieces (R128 e) -/

/-- R122 for N = 2: the OR written out. -/
theorem permGroup_two (masks : List Byte) (rows : Nat → Byte) (p : Nat) :
    permGroup 2 masks rows p
      = (byteAt masks 0 &&& rows ((p + 2) % 2)) ||| (byteAt masks 1 &&& rows ((p + 1) % 2)) := by
  simp [permGroup, orOver, List.range_succ]

/-- Settles O14: the masks for N = 2 are 0x55 and 0xAA. -/
theorem twoPieceFormula : Obligations.TwoPieceFormula := by
  intro rows
  have hmasks : byteAt (genMasks 2) 0 = 0x55 ∧ byteAt (genMasks 2) 1 = 0xAA := by decide
  obtain ⟨heven, hodd⟩ := hmasks
  rw [permGroup_two, permGroup_two, heven, hodd]
  simp [BitVec.and_comm]

/-! ### A frame parses back (R120, R154, R155) -/

theorem slice_append_left {xs : Bytes} (ys : Bytes) (a : Nat) {b : Nat} (hb : b ≤ xs.length) :
    slice (xs ++ ys) a b = slice xs a b := by
  rw [slice, slice, ← List.drop_take, ← List.drop_take, List.take_append_of_le_length hb]

/-- Settles O19: the header's parts stand before the payload, and the stored length cuts the tail off. -/
theorem frameParses : Obligations.FrameParses := by
  intro c pl d z hpl
  obtain ⟨hhdr, -, hlen, hhex⟩ := headerLayout c pl d
  have hheader (a : Nat) {b : Nat} (hb : b ≤ 76) :
      slice (frame c pl d ++ List.replicate z 0) a b = slice (buildHeader c pl d) a b := by
    rw [frame, List.append_assoc, slice_append_left _ a (hhdr ▸ hb)]
  have hstored : storedLen c (frame c pl d ++ List.replicate z 0) = pl.length := by
    rw [storedLen, hheader 4 (by decide), hlen, fromLen8_len8, BitVec.toNat_ofNat, Nat.mod_eq_of_lt hpl]
  refine ⟨hstored, (hheader 12 (Nat.le_refl 76)).trans hhex, ?_⟩
  rw [trimmed, hstored]
  exact slice_of_append rfl hhdr rfl

/-! ### A failing digest (R126, R183 step 8) -/

theorem scatterEffect_of_digestFailure {n : Nat} {s : State} {pl : Bytes}
    (hr : ContainersReady n (hdrSize + s.srcLen.toNat) s) (hpl : Holds s.mem (srcRegion s) pl)
    (hd : digestOf s.cfg pl = none) :
    scatterEffect n n s = .error (.raised .digestFailure 0) :=
  bind_error_of_ok (require_of rfl _ _) <|
    bind_error_of_ok ((checkContainers_ok_iff _ _ _ ()).2 hr) <|
    bind_error_of_ok ((readRegion_ok_iff _ _ _).2 hpl) <|
    bind_error_of_error ((digestOrRaise_error_iff _ _ _).2 ⟨hd, rfl⟩)

/-- Settles O30: the digest comes after the checks and the MemRead, and before any output. -/
theorem digestFailureReported : Obligations.DigestFailureReported :=
  fun s n _ hn hr hpl hd =>
    withMasks_raised hn (scatterEffect_of_digestFailure (s := loadMasks n s) hr hpl hd)

end Sys2Proof.Machine
end

section
/-!
The inverse permutation: its bits, the inverse law both ways, and where a flipped bit of a piece goes
(spec/42_gather.md R151 to R153, R159).
-/

namespace Sys2Proof.Machine

/-! ### The bits of a reconstructed buffer (R151, R152) -/

/-- Settles O10: `unpermCol_getLsbD` for a legal count. -/
theorem inverseBit : Obligations.InverseBit :=
  fun _ pieces i r _ hn _ hb => unpermCol_getLsbD hn.pos pieces i r hb

theorem byteAt_unpermute_getLsbD {n plen : Nat} (xs : List Bytes) {i r b : Nat} (hi : i < plen)
    (hr : r < n) (hb : b < 8) :
    (byteAt (unpermute n plen xs) (i * n + r)).getLsbD b
      = (byteAt (xs.getD ((r + b % n) % n) []) i).getLsbD b := by
  rw [byteAt_unpermute xs hr hi, unpermCol_getLsbD (Nat.zero_lt_of_lt hr) xs i r hb]

/-- Row r of column i is a place of its own in the buffer. -/
theorem rowPlace_inj {n i i' r r' : Nat} (hr : r < n) (hr' : r' < n) :
    i' * n + r' = i * n + r ↔ i' = i ∧ r' = r := by
  refine ⟨fun h => ?_, fun ⟨hi, hrr⟩ => hi ▸ hrr ▸ rfl⟩
  have hdiv (a : Nat) {c : Nat} (hc : c < n) : (a * n + c) / n = a := by
    rw [Nat.mul_comm, Nat.mul_add_div (Nat.zero_lt_of_lt hc), Nat.div_eq_of_lt hc, Nat.add_zero]
  have hi : i' = i := by rw [← hdiv i' hr', h, hdiv i hr]
  subst hi
  exact ⟨rfl, Nat.add_left_cancel h⟩

theorem rowPlace_lt {n plen i r : Nat} (hi : i < plen) (hr : r < n) : i * n + r < n * plen := by
  have hcolumns : (i + 1) * n ≤ plen * n := Nat.mul_le_mul_right n hi
  rw [Nat.succ_mul, Nat.mul_comm plen n] at hcolumns
  omega

/-- Two buffers of `plen` columns of n rows with the same bits are equal. -/
theorem buffer_ext {n plen : Nat} {xs ys : Bytes} (hx : xs.length = n * plen) (hy : ys.length = n * plen)
    (h : ∀ i < plen, ∀ r < n, ∀ b < 8,
      (byteAt xs (i * n + r)).getLsbD b = (byteAt ys (i * n + r)).getLsbD b) : xs = ys := by
  refine bytes_ext (hx.trans hy.symm) fun j hj => BitVec.eq_of_getLsbD_eq fun b hb => ?_
  have hj' : j < n * plen := hx ▸ hj
  have hn : 0 < n := Nat.pos_of_mul_pos_right (Nat.zero_lt_of_lt hj')
  have hbit := h (j / n) (Nat.div_lt_of_lt_mul hj') (j % n) (Nat.mod_lt j hn) b hb
  rwa [Nat.div_add_mod'] at hbit

/-! ### The inverse law (R153) -/

theorem byteAt_append_zeros (f : Bytes) (k j : Nat) :
    byteAt (f ++ List.replicate k 0) j = byteAt f j := by
  rw [byteAt_append]
  split
  case isTrue hj => rfl
  case isFalse hj => rw [byteAt_replicate_zero, byteAt_of_le (Nat.not_lt.1 hj)]

/-- R123: bit b of byte g of a piece is the bit of the row it was taken from. -/
theorem byteAt_permutePiece_getLsbD {n : Nat} (hn : 0 < n) (f : Bytes) (p : Nat) {g b : Nat}
    (hg : g < pieceLen n f.length) (hb : b < 8) :
    (byteAt (permutePiece n f p) g).getLsbD b
      = (byteAt f (g * n + (p + n - b % n) % n)).getLsbD b := by
  rw [byteAt_permutePiece hg, permGroup_getLsbD hn _ p hb, groupRow]

/-- R153: UNPERMUTE of PERMUTE gives the bytes back, with the zero rows of the last group. -/
theorem unpermute_permute {n : Nat} (hn : 0 < n) (f : Bytes) :
    unpermute n (pieceLen n f.length) (permute n f)
      = f ++ List.replicate (n * pieceLen n f.length - f.length) 0 := by
  refine buffer_ext (unpermute_length _ _ _) ?_ fun i hi r hr b hb => ?_
  · rw [List.length_append, List.length_replicate]
    exact Nat.add_sub_of_le (le_mul_pieceLen hn f.length)
  · rw [byteAt_unpermute_getLsbD _ hi hr hb, permute_getD (Nat.mod_lt _ hn),
      byteAt_permutePiece_getLsbD hn f _ hi hb, sourceRow_target (Nat.mod_lt b hn) hr,
      byteAt_append_zeros]

theorem pieceLen_mul {n : Nat} (hn : 0 < n) (plen : Nat) : pieceLen n (n * plen) = plen :=
  Nat.le_antisymm ((ceilDiv_le_iff hn).2 (Nat.le_refl _))
    (Nat.le_of_mul_le_mul_left (le_mul_pieceLen hn _) hn)

theorem getD_length {plen p : Nat} {pieces : List Bytes} (hp : p < pieces.length)
    (hlen : ∀ x ∈ pieces, x.length = plen) : (pieces.getD p []).length = plen := by
  rw [List.getD_eq_getElem _ _ hp]
  exact hlen _ (List.getElem_mem hp)

/-- R153: the pieces of a reconstructed buffer are the pieces it was made of. -/
theorem permutePiece_unpermute {n plen p : Nat} (hp : p < n) {pieces : List Bytes}
    (hpieces : pieces.length = n) (hlen : ∀ x ∈ pieces, x.length = plen) :
    permutePiece n (unpermute n plen pieces) p = pieces.getD p [] := by
  have hn : 0 < n := Nat.zero_lt_of_lt hp
  have hplen : pieceLen n (unpermute n plen pieces).length = plen := by
    rw [unpermute_length, pieceLen_mul hn]
  refine bytes_ext ?_ fun g hg => BitVec.eq_of_getLsbD_eq fun b hb => ?_
  · rw [permutePiece_length, hplen, getD_length (hpieces ▸ hp) hlen]
  · rw [permutePiece_length] at hg
    rw [byteAt_permutePiece_getLsbD hn _ p hg hb,
      byteAt_unpermute_getLsbD _ (hplen ▸ hg) (Nat.mod_lt _ hn) hb,
      target_sourceRow (Nat.mod_lt b hn) hp]

/-- R153: PERMUTE of UNPERMUTE gives the pieces back. -/
theorem permute_unpermute {n plen : Nat} {pieces : List Bytes} (hpieces : pieces.length = n)
    (hlen : ∀ x ∈ pieces, x.length = plen) : permute n (unpermute n plen pieces) = pieces := by
  refine List.ext_getElem ((permute_length n _).trans hpieces.symm) fun p hp hp' => ?_
  have hpn : p < n := hpieces ▸ hp'
  rw [← List.getD_eq_getElem _ [] hp, ← List.getD_eq_getElem _ [] hp', permute_getD hpn,
    permutePiece_unpermute hpn hpieces hlen]

/-- Settles O12: bit b of row r goes to piece (r + b mod N) mod N and is read back from there. -/
theorem inverseLaw : Obligations.InverseLaw := by
  intro n hn
  refine ⟨fun f => ⟨unpermute_permute hn.pos f, le_mul_pieceLen hn.pos f.length, ?_⟩,
    fun plen pieces => permute_unpermute⟩
  have hlt := mul_pieceLen_lt hn.pos f.length
  omega

/-! ### A flipped bit (R159) -/

theorem flipBit_length (bs : Bytes) (i b : Nat) : (flipBit bs i b).length = bs.length :=
  List.length_modify ..

/-- A flip changes the one bit it names. -/
theorem byteAt_flipBit_getLsbD {bs : Bytes} (i b : Nat) {j c : Nat} (hj : j < bs.length) (hc : c < 8) :
    (byteAt (flipBit bs i b) j).getLsbD c
      = ((byteAt bs j).getLsbD c ^^ decide (j = i ∧ c = b)) := by
  rw [flipBit, byteAt_modify _ _ _ _ hj]
  by_cases hij : i = j
  · rw [if_pos hij, BitVec.getLsbD_xor, getLsbD_one_shiftLeft b c hc]
    simp [hij]
  · rw [if_neg hij]
    simp [Ne.symm hij]

theorem getD_modify {pieces : List Bytes} {p : Nat} (hp : p < pieces.length) (q : Nat)
    (f : Bytes → Bytes) :
    (pieces.modify q f).getD p [] = if q = p then f (pieces.getD p []) else pieces.getD p [] := by
  rw [List.getD_eq_getElem _ _ (by rwa [List.length_modify]), List.getElem_modify,
    List.getD_eq_getElem _ _ hp]

/-- A flip in piece q changes the one bit it names, of that piece alone. -/
theorem byteAt_flipPiece_getLsbD {plen p : Nat} {pieces : List Bytes} (hp : p < pieces.length)
    (hlen : ∀ x ∈ pieces, x.length = plen) (q i b : Nat) {j c : Nat} (hj : j < plen) (hc : c < 8) :
    (byteAt ((pieces.modify q fun x => flipBit x i b).getD p []) j).getLsbD c
      = ((byteAt (pieces.getD p []) j).getLsbD c ^^ decide (p = q ∧ j = i ∧ c = b)) := by
  have hj' : j < (pieces.getD p []).length := by rwa [getD_length hp hlen]
  rw [getD_modify hp]
  by_cases hqp : q = p
  · rw [if_pos hqp, byteAt_flipBit_getLsbD i b hj' hc]
    simp [hqp]
  · rw [if_neg hqp]
    simp [Ne.symm hqp]

/-- Settles O59: the bit that a row reads from piece q is the one that row sends there. -/
theorem flippedBitTravels : Obligations.FlippedBitTravels := by
  intro n plen pieces q i b hn hpieces hlen hq hi hb
  have howner (c : Nat) : c % n < n := Nat.mod_lt c hn.pos
  refine buffer_ext (unpermute_length _ _ _) (by rw [flipBit_length, unpermute_length])
    fun i' hi' r hr c hc => ?_
  have hplace : i' * n + r < (unpermute n plen pieces).length := by
    rw [unpermute_length]
    exact rowPlace_lt hi' hr
  have hpiece : (r + c % n) % n < pieces.length := by
    rw [hpieces]
    exact Nat.mod_lt _ hn.pos
  rw [byteAt_unpermute_getLsbD _ hi' hr hc, byteAt_flipPiece_getLsbD hpiece hlen q i b hi' hc,
    byteAt_flipBit_getLsbD _ b hplace hc, byteAt_unpermute_getLsbD _ hi' hr hc]
  have hsame : ((r + c % n) % n = q ∧ i' = i ∧ c = b) ↔
      (i' * n + r = i * n + (q + n - b % n) % n ∧ c = b) := by
    rw [rowPlace_inj (Nat.mod_lt _ hn.pos) hr]
    constructor
    · rintro ⟨h, rfl, rfl⟩
      exact ⟨⟨rfl, ((sourceRow_eq_iff (howner c) hr hq).2 h.symm).symm⟩, rfl⟩
    · rintro ⟨⟨rfl, h⟩, rfl⟩
      exact ⟨((sourceRow_eq_iff (howner c) hr hq).1 h.symm).symm, rfl, rfl⟩
  rw [decide_eq_decide.2 hsame]

end Sys2Proof.Machine
end

section
/-!
GATHER and UNPERMUTE past the piece-count check: pieces of unequal length, what verification refuses and in
which order, and that a payload GATHER writes is a verified one (spec/42_gather.md R154 to R157;
spec/60_exceptions.md R183 steps 4 and 9 to 12).
-/

namespace Sys2Proof.Machine

/-! ### Pieces of unequal length (R183 step 4) -/

/-- R156, R157: some piece is not as long as piece 0. -/
def UnequalLengths (n : Nat) (s : State) : Prop :=
  ∃ p : Fin 8, p.val < n ∧ s.psize[p] ≠ s.psize[(0 : Fin 8)]

theorem checkEqualLengths_of_unequal {n : Nat} {s : State} (h : UnequalLengths n s) :
    checkEqualLengths n s = .error (.raised .pieceLengthMismatch 0) := by
  obtain ⟨p, hp, hne⟩ := h
  exact if_neg fun heq => hne (heq p hp)

theorem gatherEffect_of_unequal {n : Nat} {s : State} (h : UnequalLengths n s) :
    gatherEffect n n s = .error (.raised .pieceLengthMismatch 0) :=
  bind_error_of_ok (require_of rfl _ _) <| bind_error_of_error (checkEqualLengths_of_unequal h)

theorem unpermuteEffect_of_unequal {n : Nat} {s : State} (h : UnequalLengths n s) :
    unpermuteEffect n n s = .error (.raised .pieceLengthMismatch 0) :=
  bind_error_of_ok (require_of rfl _ _) <| bind_error_of_error (checkEqualLengths_of_unequal h)

/-- Settles O27: the lengths are compared before anything else once K = N. -/
theorem unequalPieces : Obligations.UnequalPieces := by
  intro s n hn hne i hi
  have hne' : UnequalLengths n (loadMasks n s) := hne
  simp only [List.mem_cons, List.not_mem_nil, or_false] at hi
  rcases hi with rfl | rfl
  · exact withMasks_raised hn (gatherEffect_of_unequal hne')
  · exact withMasks_raised hn (unpermuteEffect_of_unequal hne')

/-! ### Verification (R155, R183 steps 10 to 12) -/

/-- R155: the first check that fails gives the result. -/
theorem verify_error_iff (c : Config) (r : Bytes) (e : Stop) :
    verify c r = .error e ↔
      (r.length - hdrSize < storedLen c r ∧ e = .raised .malformedHeader 2) ∨
      (storedLen c r ≤ r.length - hdrSize ∧ digestOf c (trimmed c r) = none ∧
        e = .raised .digestFailure 0) ∨
      (storedLen c r ≤ r.length - hdrSize ∧ ∃ d, digestOf c (trimmed c r) = some d ∧
        hexDigest c.hexCase d ≠ storedHex r ∧ e = .raised .integrityMismatch 0) := by
  simp only [verify, except_bind_error_iff, require_error_iff, require_ok_iff, digestOrRaise_error_iff,
    digestOrRaise_ok_iff, Nat.not_le, reduceCtorEq, and_false, exists_false, or_false, exists_const,
    and_or_left]

theorem verify_of_long {c : Config} {r : Bytes} (h : r.length - hdrSize < storedLen c r) :
    verify c r = .error (.raised .malformedHeader 2) :=
  (verify_error_iff c r _).2 (.inl ⟨h, rfl⟩)

theorem verify_of_digestFailure {c : Config} {r : Bytes} (hlen : storedLen c r ≤ r.length - hdrSize)
    (hd : digestOf c (trimmed c r) = none) : verify c r = .error (.raised .digestFailure 0) :=
  (verify_error_iff c r _).2 (.inr (.inl ⟨hlen, hd, rfl⟩))

theorem verify_of_mismatch {c : Config} {r : Bytes} {d : BitVec 256}
    (hlen : storedLen c r ≤ r.length - hdrSize) (hd : digestOf c (trimmed c r) = some d)
    (hhex : hexDigest c.hexCase d ≠ storedHex r) :
    verify c r = .error (.raised .integrityMismatch 0) :=
  (verify_error_iff c r _).2 (.inr (.inr ⟨hlen, d, hd, hhex, rfl⟩))

theorem ok_bind {α β : Type} (a : α) (f : α → Except Stop β) :
    ((Except.ok a : Except Stop α) >>= f) = f a := rfl

/-- R156, R183 steps 9 to 12: how GATHER of readable pieces with the buffer `r` fails. -/
theorem gatherEffect_error_iff {n : Nat} {s : State} {xs : List Bytes} {r : Bytes} (hr : PiecesReady n s)
    (hxs : readPieces s (s.psize[(0 : Fin 8)]).toNat (slots n) = .ok xs)
    (hbuf : unpermute n (s.psize[(0 : Fin 8)]).toNat xs = r) (e : Stop) :
    gatherEffect n n s = .error e ↔
      (r.length < hdrSize ∧ e = .raised .malformedHeader 1) ∨
      (hdrSize ≤ r.length ∧ verify s.cfg r = .error e) ∨
      (hdrSize ≤ r.length ∧ ∃ pl, verify s.cfg r = .ok pl ∧ s.dstSize.toNat < storedLen s.cfg r ∧
        e = .raised .descriptorError 2) := by
  obtain ⟨heq, hdst, hin, hapart⟩ := hr
  have hregions : (dstRegion s).InMem s.cfg ∧ ∀ p : Fin 8, p.val < n → (pieceRegion s p).InMem s.cfg :=
    ⟨hdst, hin⟩
  subst hbuf
  rw [gatherEffect, require_bind, if_pos rfl, checkEqualLengths, require_bind, if_pos heq, checkInMem,
    require_bind, if_pos hregions, checkApart, require_bind, if_pos hapart, hxs,
    ok_bind]
  simp only [except_bind_error_iff, require_error_iff, require_ok_iff, Nat.not_le, reduceCtorEq,
    and_false, exists_false, or_false, exists_const, and_or_left]

/-- Settles O31: MASKS is loaded and the first failing check gives the result. -/
theorem gatherVerificationErrors : Obligations.GatherVerificationErrors := by
  intro s n xs hn hr hxs plen r len pl reports
  have hrlen : r.length = n * plen := unpermute_length n plen xs
  have hread : readPieces (loadMasks n s) plen (slots n) = .ok xs :=
    readPieces_of_holdsPieces (s := loadMasks n s) hn hr hxs
  have fails (e : Stop) := (gatherEffect_error_iff (s := loadMasks n s) hr hread rfl e).2
  have stops {k : ResultKind} {info : BitVec 8}
      (h : gatherEffect n n (loadMasks n s) = .error (.raised k info)) : reports k.code info :=
    withMasks_raised hn h
  rw [← hrlen]
  refine ⟨fun hshort => ?_, fun hhdr hlong => ?_, fun hhdr hlen hd => ?_, fun d hhdr hlen hd =>
    ⟨fun hhex => ?_, fun hhex hsmall => ?_⟩⟩
  · exact stops (fails _ (.inl ⟨hshort, rfl⟩))
  · exact stops (fails _ (.inr (.inl ⟨hhdr, verify_of_long hlong⟩)))
  · exact stops (fails _ (.inr (.inl ⟨hhdr, verify_of_digestFailure hlen hd⟩)))
  · exact stops (fails _ (.inr (.inl ⟨hhdr, verify_of_mismatch hlen hd hhex⟩)))
  · have hok : verify s.cfg r = .ok pl := (verify_ok_iff _ _ _).2 ⟨hlen, rfl, d, hd, hhex⟩
    exact stops (fails _ (.inr (.inr ⟨hhdr, pl, hok, hsmall, rfl⟩)))

/-! ### What success says (R154 to R156) -/

theorem raisedResults_code_ne_zero {i : Instr} {k : ResultKind} {info : BitVec 8}
    (h : (k, info) ∈ raisedResults i) : k.code ≠ 0 := by
  have key : ∀ r ∈ raisedResults i, r.1.code ≠ 0 := by
    cases i <;> simp only [raisedResults] <;> decide
  exact key _ h

/-- A command that reports success has a legal piece count and has written its outputs. -/
theorem exec_success {i : Instr} {s t : State} (h : exec i s = .next t) (herr : t.status.err = 0) :
    LegalCount (pieceCount i) ∧
      ∃ u, Outputs (loadMasks (pieceCount i) s) i u ∧ t = finish .success 0 u := by
  rcases exec_next i s t h with ⟨-, rfl⟩ | ⟨hn, hu⟩ | ⟨-, k, info, hk, rfl⟩
  · cases herr
  · exact ⟨hn, hu⟩
  · exact absurd herr (raisedResults_code_ne_zero hk)

/-- The pieces that GATHER and UNPERMUTE read are the pieces that memory holds. -/
theorem holdsPieces_of_readPieces {n : Nat} {s : State} {xs : List Bytes} (hn : LegalCount n)
    (hr : PiecesReady n s) (h : readPieces s (s.psize[(0 : Fin 8)]).toNat (slots n) = .ok xs) :
    HoldsPieces n s xs := by
  obtain ⟨heq, -⟩ := hr
  rw [readPieces_ok_iff, List.forall₂_iff_get] at h
  obtain ⟨hlen, hholds⟩ := h
  rw [slots_length hn.2] at hlen
  refine ⟨hlen.symm, fun p hp => ?_⟩
  have hslot := slots_getElem? hn.2 p hp
  obtain ⟨hp', hget⟩ := List.getElem?_eq_some_iff.1 hslot
  have hpiece := hholds p.val hp' (hlen ▸ hp)
  rw [pieceRegion_eq heq p hp, List.getD_eq_getElem _ _ (hlen ▸ hp)]
  rwa [List.get_eq_getElem, hget] at hpiece

/-- Settles O39: a success comes from `Outputs.gather`, whose payload has passed verification. -/
theorem gatherIsSound : Obligations.GatherIsSound := by
  intro s t n k h herr
  obtain ⟨hn, u, hu, rfl⟩ := exec_success h herr
  cases hu with
  | gather n xs pl hr hxs hlen hv hfit =>
    obtain ⟨hrem, rfl, d, hd, hhex⟩ := (verify_ok_iff _ _ _).1 hv
    refine ⟨rfl, hn, hr, xs, holdsPieces_of_readPieces (s := loadMasks n s) hn hr hxs, ?_⟩
    intro r len pl
    have hrem' : 76 + len ≤ r.length := Nat.add_le_of_le_sub' hlen hrem
    have hpllen : pl.length = len := by
      rw [slice_length hrem', Nat.add_sub_cancel_left]
    have hw : OutputWritten pl (loadMasks n s) (storeOutput pl (loadMasks n s)) :=
      storeOutput_written (by rwa [hpllen])
    refine ⟨hrem', hfit, hw.dstSize.trans hpllen, ⟨d, hd, hhex⟩, fun j hj => ?_⟩
    rw [getElem?_eq_some_byteAt (hpllen.symm ▸ hj)]
    exact hw.bytes j (hpllen.symm ▸ hj)

end Sys2Proof.Machine
end

section
/-!
A scattered payload: what verification makes of its buffer, whole or with one bit flipped, and the round trip
of SCATTER and GATHER (spec/42_gather.md R154, R155, R158, R159).
-/

namespace Sys2Proof.Machine

/-! ### The buffer of a framed payload (R120, R155) -/

theorem framed_length (c : Config) (pl : Bytes) (d : BitVec 256) (z : Nat) :
    (frame c pl d ++ List.replicate z 0).length = hdrSize + pl.length + z := by
  rw [List.length_append, frame_length, List.length_replicate]

/-- R155: a framed payload passes verification, whatever zero tail follows it. -/
theorem verify_frame {c : Config} {pl : Bytes} {d : BitVec 256} (hpl : pl.length < 2 ^ 64)
    (hd : digestOf c pl = some d) (z : Nat) :
    verify c (frame c pl d ++ List.replicate z 0) = .ok pl := by
  obtain ⟨hlen, hhex, htrim⟩ := frameParses c pl d z hpl
  refine (verify_ok_iff _ _ _).2 ⟨?_, htrim.symm, d, hd, hhex.symm⟩
  rw [hlen, framed_length]
  omega

/-! ### What one flipped bit changes (R154, R159) -/

theorem flipBit_of_length_le {bs : Bytes} {i : Nat} (h : bs.length ≤ i) (b : Nat) :
    flipBit bs i b = bs := List.modify_eq_self h

theorem flipBit_ne {bs : Bytes} {i b : Nat} (hi : i < bs.length) (hb : b < 8) : flipBit bs i b ≠ bs := by
  intro h
  have hbit := byteAt_flipBit_getLsbD i b hi hb
  rw [h] at hbit
  simp at hbit

theorem slice_flipBit {bs : Bytes} {j a : Nat} (h : a ≤ j) (e b : Nat) :
    slice (flipBit bs j b) a e = flipBit (slice bs a e) (j - a) b := by
  simp only [slice, flipBit, List.drop_modify_of_ge _ _ _ _ h, List.take_modify]

theorem slice_flipBit_outside (bs : Bytes) {j a e : Nat} (h : j < a ∨ e ≤ j) (b : Nat) :
    slice (flipBit bs j b) a e = slice bs a e := by
  by_cases hja : j < a
  · rw [slice, flipBit, List.drop_modify_of_lt _ _ _ _ hja, slice]
  · rw [slice_flipBit (Nat.not_lt.1 hja), flipBit_of_length_le]
    have hlen := slice_length_le bs a e
    omega

theorem storedLen_flipBit (c : Config) (bs : Bytes) {j : Nat} (h : j < 4 ∨ 12 ≤ j) (b : Nat) :
    storedLen c (flipBit bs j b) = storedLen c bs := by
  rw [storedLen, slice_flipBit_outside bs h, storedLen]

theorem storedHex_flipBit (bs : Bytes) {j : Nat} (h : j < 12 ∨ hdrSize ≤ j) (b : Nat) :
    storedHex (flipBit bs j b) = storedHex bs := slice_flipBit_outside bs h b

theorem trimmed_flipBit (c : Config) (bs : Bytes) {j : Nat} (hlen : j < 4 ∨ 12 ≤ j)
    (h : j < hdrSize ∨ hdrSize + storedLen c bs ≤ j) (b : Nat) :
    trimmed c (flipBit bs j b) = trimmed c bs := by
  rw [trimmed, storedLen_flipBit c bs hlen, slice_flipBit_outside bs h, trimmed]

/-- R159 (a), (e): verification reads neither the magic nor what follows the payload. -/
theorem verify_flipBit (c : Config) (bs : Bytes) {j : Nat}
    (h : j < 4 ∨ hdrSize + storedLen c bs ≤ j) (b : Nat) :
    verify c (flipBit bs j b) = verify c bs := by
  have hhdr : hdrSize = 76 := rfl
  rw [verify, storedLen_flipBit c bs (by omega), storedHex_flipBit bs (by omega),
    trimmed_flipBit c bs (by omega) (by omega), flipBit_length, verify]

/-- R155: a payload of another digest than the one stored is refused. -/
theorem verify_of_other {c : Config} {r : Bytes} {d : BitVec 256}
    (hlen : storedLen c r ≤ r.length - hdrSize) (hhex : storedHex r = hexDigest c.hexCase d)
    (hother : ∃ d', digestOf c (trimmed c r) = some d' ∧ d' ≠ d) :
    verify c r = .error (.raised .integrityMismatch 0) := by
  obtain ⟨d', hd', hne⟩ := hother
  refine verify_of_mismatch hlen hd' fun h => hne (hexRenderingInjective c.hexCase d' d ?_)
  rw [h, hhex]

/-- Settles O60: each field of the buffer is read by one check of R155, and the magic and the tail by
none. -/
theorem tamperVerdict : Obligations.TamperVerdict := by
  intro c pl d z j b hpl hd hb hj r len other
  obtain ⟨hlen, hhex, htrim⟩ := frameParses c pl d z hpl
  have hrem : r.length - hdrSize = pl.length + z := by
    rw [flipBit_length, framed_length]
    omega
  have hhex' (h : j < 12 ∨ 76 ≤ j) : storedHex r = hexDigest c.hexCase d :=
    (storedHex_flipBit _ h b).trans hhex
  have hlen' (h : 12 ≤ j) : storedLen c r = pl.length := (storedLen_flipBit c _ (.inr h) b).trans hlen
  have hfits (h : 12 ≤ j) : storedLen c r ≤ r.length - hdrSize := by
    rw [hlen' h, hrem]
    exact Nat.le_add_right _ _
  have hkept (h : j < 4 ∨ 76 + pl.length ≤ j) : verify c r = .ok pl :=
    (verify_flipBit c _ (hlen.symm ▸ h) b).trans (verify_frame hpl hd z)
  refine ⟨fun h => hkept (.inl h), fun _ _ hlong => ?length_long, fun _ h hfit hother => ?length_fits,
    fun h h' => ?digest, fun h _ => ?payload, fun h => hkept (.inr h)⟩
  case length_long => exact verify_of_long (hrem ▸ hlong)
  case length_fits => exact verify_of_other (hrem ▸ hfit) (hhex' (.inl h)) hother
  case digest =>
    have htrim' : trimmed c r = pl := (trimmed_flipBit c _ (.inr h) (.inl h') b).trans htrim
    have hflip : storedHex r = flipBit (hexDigest c.hexCase d) (j - 12) b := by
      rw [← hhex]
      exact slice_flipBit h _ b
    refine verify_of_mismatch (hfits h) (htrim'.symm ▸ hd) ?_
    rw [hflip]
    refine (flipBit_ne ?_ hb).symm
    rw [hexDigest_length]
    omega
  case payload =>
    have h12 : 12 ≤ j := Nat.le_trans (by decide) h
    exact ⟨hlen' h12, verify_of_other (hfits h12) (hhex' (.inr h))⟩

/-! ### The round trip (R158) -/

theorem Holds.unique {m : Memory} {r : Region} {xs ys : Bytes} (hx : Holds m r xs) (hy : Holds m r ys) :
    xs = ys := by
  obtain ⟨hxl, hxr⟩ := hx
  obtain ⟨hyl, hyr⟩ := hy
  refine List.ext_getElem? fun i => ?_
  by_cases hi : i < r.len
  · rw [← hxr i hi, hyr i hi]
  · rw [List.getElem?_eq_none (hxl ▸ Nat.not_lt.1 hi), List.getElem?_eq_none (hyl ▸ Nat.not_lt.1 hi)]

/-- What a region holds depends on its bytes alone. -/
theorem Holds.congr {m q : Memory} {r : Region} {bs : Bytes} (h : Holds m r bs)
    (hq : ∀ a, r.Has a → q.read a = m.read a) : Holds q r bs := by
  obtain ⟨hlen, hread⟩ := h
  refine ⟨hlen, fun i hi => ?_⟩
  rw [hq _ ⟨Nat.le_add_right _ _, Nat.add_lt_add_left hi _⟩, hread i hi]

/-- The pieces written are the pieces that memory then holds. -/
theorem PiecesWritten.holdsPieces {n : Nat} {f : Bytes} {s t : State} (h : PiecesWritten n f s t)
    (hpaddr : t.paddr = s.paddr) : HoldsPieces n t (permute n f) := by
  refine ⟨permute_length n f, fun p hp => ?_⟩
  rw [permute_getD hp, pieceRegion, h.psize_used p hp, hpaddr]
  refine ⟨permutePiece_length n f p, fun g hg => ?_⟩
  obtain ⟨y, hread, hbits⟩ := h.bits p hp g hg
  rw [hread, getElem?_eq_some_byteAt (by rwa [permutePiece_length])]
  refine congrArg some (BitVec.eq_of_getLsbD_eq fun b hb => ?_)
  rw [hbits b hb, byteAt_permutePiece_getLsbD (Nat.zero_lt_of_lt hp) f p hg hb]

/-- What a successful SCATTER of `pl` with the digest `d` from `s` leaves behind: the N pieces of the framed
payload, in memory and of one length. -/
structure Scattered (n : Nat) (pl : Bytes) (d : BitVec 256) (s t : State) : Prop where
  cfg : t.cfg = s.cfg
  psize : ∀ p : Fin 8, p.val < n → (t.psize[p]).toNat = pieceLen n (frame s.cfg pl d).length
  inMem : ∀ p : Fin 8, p.val < n → (pieceRegion t p).InMem s.cfg
  pieces : HoldsPieces n t (permute n (frame s.cfg pl d))

theorem storePieces_scattered {n : Nat} {pl : Bytes} {d : BitVec 256} {s : State} (hn : LegalCount n)
    (hpl : Holds s.mem (srcRegion s) pl) (hr : ContainersReady n (hdrSize + s.srcLen.toNat) s) :
    Scattered n pl d s (storePieces n (permute n (frame s.cfg pl d)) s) := by
  have hlen : (frame s.cfg pl d).length = hdrSize + s.srcLen.toNat := frame_length_of_holds hpl s.cfg d
  rw [← hlen] at hr
  have hw := storePieces_written hn hr
  obtain ⟨hcfg, -, -, -, -, -, -, hpaddr, -⟩ := storePieces_kept n (permute n (frame s.cfg pl d)) s
  refine ⟨hcfg, hw.psize_used, fun p hp => ?_, hw.holdsPieces hpaddr⟩
  rw [pieceRegion, hw.psize_used p hp, hpaddr, ← pieceTarget_permute _ s hp]
  exact pieceTarget_permute_inMem hr p hp

theorem exec_scatter_scattered {s t : State} {n k : Nat} {pl : Bytes} (hpl : Holds s.mem (srcRegion s) pl)
    (h : exec (.scatter n k) s = .next t) (herr : t.status.err = 0) :
    LegalCount n ∧ ∃ d, digestOf s.cfg pl = some d ∧ Scattered n pl d s t := by
  obtain ⟨hn, u, hu, rfl⟩ := exec_success h herr
  cases hu with
  | scatter n pl' d hr hpl' hd =>
    obtain rfl : pl' = pl := hpl'.unique hpl
    have hs := storePieces_scattered (s := loadMasks n s) (d := d) hn hpl hr
    exact ⟨hn, d, hd, hs.cfg, hs.psize, hs.inMem, hs.pieces⟩

theorem Scattered.psize_eq {n : Nat} {pl : Bytes} {d : BitVec 256} {s t : State}
    (h : Scattered n pl d s t) (p : Fin 8) (hp : p.val < n) : t.psize[p] = t.psize[(0 : Fin 8)] :=
  BitVec.eq_of_toNat_eq ((h.psize p hp).trans (h.psize 0 (Nat.zero_lt_of_lt hp)).symm)

/-- GATHER of the pieces of a framed payload writes the payload. -/
theorem exec_gather_of_framed {u : State} {n : Nat} {pl : Bytes} {d : BitVec 256} (hn : LegalCount n)
    (hr : PiecesReady n u) (hd : digestOf u.cfg pl = some d)
    (hsize : (u.psize[(0 : Fin 8)]).toNat = pieceLen n (frame u.cfg pl d).length)
    (hholds : HoldsPieces n u (permute n (frame u.cfg pl d))) (hfit : pl.length ≤ u.dstSize.toNat) :
    ∃ v, exec (.gather n n) u = .next v ∧ v.status.err = 0 ∧ v.dstSize.toNat = pl.length ∧
      ∀ i < pl.length, v.mem.read (u.dstAddr.toNat + i) = pl[i]? := by
  have hpl : pl.length < 2 ^ 64 := hfit.trans_lt u.dstSize.isLt
  have hread := readPieces_of_holdsPieces (s := loadMasks n u) hn hr hholds
  obtain ⟨z, hbuf⟩ : ∃ z, unpermute n (u.psize[(0 : Fin 8)]).toNat (permute n (frame u.cfg pl d))
      = frame u.cfg pl d ++ List.replicate z 0 := ⟨_, hsize ▸ unpermute_permute hn.pos _⟩
  obtain ⟨hstored, -⟩ := frameParses u.cfg pl d z hpl
  have hlen := framed_length u.cfg pl d z
  have hverify := verify_frame hpl hd z
  rw [← hbuf] at hstored hlen hverify
  have hhdr := hlen.symm ▸ (Nat.le_add_right hdrSize pl.length).trans (Nat.le_add_right _ z)
  have hout : Outputs (loadMasks n u) (.gather n n) (storeOutput pl (loadMasks n u)) :=
    .gather n _ pl hr hread hhdr hverify (hstored.trans_le hfit)
  have hw : OutputWritten pl (loadMasks n u) (storeOutput pl (loadMasks n u)) := storeOutput_written hfit
  refine ⟨_, hout.exec_eq rfl hn, rfl, hw.dstSize, fun i hi => ?_⟩
  rw [getElem?_eq_some_byteAt hi]
  exact hw.bytes i hi

/-- Settles O58: the pieces in `u` are those SCATTER wrote, so GATHER finds the framed payload. -/
theorem roundTrip : Obligations.RoundTrip := by
  intro s t u n k pl hpl hexec herr
  obtain ⟨hn, d, hd, hs⟩ := exec_scatter_scattered hpl hexec herr
  refine ⟨hs.psize_eq, fun hcfg hpaddr hpsize hmem hdst hapart hfit => ?_⟩
  have hregion (p : Fin 8) : pieceRegion u p = pieceRegion t p := by
    simp only [pieceRegion, hpaddr, hpsize]
  rw [hs.cfg] at hcfg
  have hready : PiecesReady n u := by
    refine ⟨fun p hp => hpsize ▸ hs.psize_eq p hp, hdst, fun p hp => ?_, hapart⟩
    rw [hregion, hcfg]
    exact hs.inMem p hp
  obtain ⟨hcount, hpieces⟩ := hs.pieces
  have hholds : HoldsPieces n u (permute n (frame s.cfg pl d)) := by
    refine ⟨hcount, fun p hp => ?_⟩
    rw [hregion]
    exact (hpieces p hp).congr fun a => hmem p a hp
  rw [← hcfg] at hd hholds
  refine exec_gather_of_framed hn hready hd ?_ hholds hfit
  rw [hpsize, hcfg]
  exact hs.psize 0 hn.pos

end Sys2Proof.Machine
end

section
/-!
What a result says: which command reports it, and that a failed command leaves every state but STATUS, LCMD and
MASKS (spec/60_exceptions.md R180 to R183; spec/10_state.md R31, R38).
-/

namespace Sys2Proof.Machine

/-! ### Failed commands (R182) -/

/-- A state with MASKS and STATUS replaced and LCMD none: the only change R182 and R38 leave to a failure. -/
def failedAs (masks : Word) (status : Status) (s : State) : State :=
  { s with masks := masks, status := status, lcmd := none }

theorem finish_eq_failedAs (k : ResultKind) (info : BitVec 8) (s : State) :
    finish k info s = failedAs s.masks (s.status.completed k info) s := rfl

theorem finish_loadMasks_eq_failedAs (k : ResultKind) (info : BitVec 8) (n : Nat) (s : State) :
    finish k info (loadMasks n s) = failedAs (packMasks (genMasks n)) (s.status.completed k info) s := rfl

/-- Outputs are committed on success alone (R58, R182). -/
theorem exec_failure {i : Instr} {s t : State} (h : exec i s = .next t) (herr : t.status.err ≠ 0) :
    t = failedAs t.masks t.status s := by
  rcases exec_next i s t h with ⟨-, rfl⟩ | ⟨-, u, -, rfl⟩ | ⟨-, k, info, -, rfl⟩
  · exact finish_eq_failedAs _ _ s
  · exact absurd rfl herr
  · exact finish_loadMasks_eq_failedAs _ _ _ s

/-- R31: a command past its piece-count check has loaded MASKS, whether it fails later or not. -/
theorem exec_masks {i : Instr} {s t : State} (h : exec i s = .next t) (hn : LegalCount (pieceCount i)) :
    t.masks = packMasks (genMasks (pieceCount i)) := by
  rcases exec_next i s t h with ⟨hn', -⟩ | ⟨-, u, hu, rfl⟩ | ⟨-, k, info, -, rfl⟩
  · exact absurd hn hn'
  · obtain ⟨-, -, hmasks⟩ := hu.kept
    rw [finish_masks, hmasks, loadMasks_masks]
  · rw [finish_masks, loadMasks_masks]

/-- Settles O32: a legal word fails by its command, an illegal one by its completion alone. -/
theorem failureKeepsState : Obligations.FailureKeepsState := by
  intro s t w hnext hbusy hlatch hstep herr
  cases hd : decode w with
  | ok i =>
    rw [stepRunsDecodedCommand s w i hnext hbusy hlatch hd] at hstep
    obtain ⟨-, hkeep, -⟩ := registerFrame i (tookTurn s) t hstep
    refine ⟨exec_failure hstep herr, fun j hj hn => ?_, fun j hj hn => ?_, fun _ he => nomatch he⟩
    · cases hj
      exact masksFor_of_masks (exec_masks hstep hn)
    · cases hj
      exact hkeep hn
  | error e =>
    rw [step_illegal hnext hbusy hlatch hd] at hstep
    cases hstep
    exact ⟨finish_eq_failedAs _ _ (tookTurn s), fun _ hj => (nomatch hj), fun _ hj => (nomatch hj),
      fun _ _ => rfl⟩

/-! ### Which command reports which result (R180, R183) -/

/-- The column "raised by" of R180, read by command: the codes each command can report. -/
def reportedCodes : Instr → List (BitVec 4)
  | .genmask _ => [0, 1]
  | .scatter _ _ => [0, 1, 2, 4, 7]
  | .gather _ _ => [0, 1, 2, 3, 4, 5, 6, 7]
  | .permute _ _ => [0, 1, 2, 7]
  | .unpermute _ _ => [0, 1, 2, 3, 7]

theorem code_mem_reportedCodes {i : Instr} {k : ResultKind} {info : BitVec 8}
    (h : (k, info) ∈ reportedResults i) : k.code ∈ reportedCodes i := by
  have key : ∀ r ∈ reportedResults i, r.1.code ∈ reportedCodes i := by
    cases i <;> simp only [reportedResults, raisedResults, reportedCodes] <;> decide
  exact key _ h

section

variable {i : Instr} {c : BitVec 4}

theorem ne_genmask_of_reports (h : c ∈ reportedCodes i) (hc : c = 2 ∨ c = 7) : ∀ n, i ≠ .genmask n := by
  rintro n rfl
  rcases hc with rfl | rfl <;> simp [reportedCodes] at h

/-- PieceLengthMismatch. -/
theorem gather_or_unpermute_of_reports (h : 3 ∈ reportedCodes i) :
    ∃ n k, i = .gather n k ∨ i = .unpermute n k := by
  cases i with
  | gather n k => exact ⟨n, k, .inl rfl⟩
  | unpermute n k => exact ⟨n, k, .inr rfl⟩
  | genmask _ | scatter _ _ | permute _ _ => simp [reportedCodes] at h

/-- DigestFailure. -/
theorem scatter_or_gather_of_reports (h : 4 ∈ reportedCodes i) :
    ∃ n k, i = .scatter n k ∨ i = .gather n k := by
  cases i with
  | scatter n k => exact ⟨n, k, .inl rfl⟩
  | gather n k => exact ⟨n, k, .inr rfl⟩
  | genmask _ | permute _ _ | unpermute _ _ => simp [reportedCodes] at h

/-- MalformedHeader and IntegrityMismatch. -/
theorem gather_of_reports (h : c ∈ reportedCodes i) (hc : c = 5 ∨ c = 6) : ∃ n k, i = .gather n k := by
  cases i with
  | gather n k => exact ⟨n, k, rfl⟩
  | genmask _ | scatter _ _ | permute _ _ | unpermute _ _ =>
    rcases hc with rfl | rfl <;> simp [reportedCodes] at h

end

/-- Settles O33: the result is one of `reportedResults`, and its code one of `reportedCodes`. -/
theorem resultsAreLegal : Obligations.ResultsAreLegal := by
  intro i s t h
  obtain ⟨k, info, hk, hstatus, -⟩ := exec_reports h
  obtain ⟨hlegal, hkind⟩ := reportedResults_legal hk
  have hcode := code_mem_reportedCodes hk
  rw [hstatus, completed_err, completed_info]
  exact ⟨hlegal, code_ne_of_ne_illegalCommand hkind, ne_genmask_of_reports hcode,
    fun hc => gather_or_unpermute_of_reports (hc ▸ hcode),
    fun hc => scatter_or_gather_of_reports (hc ▸ hcode), gather_of_reports hcode⟩

end Sys2Proof.Machine
end

section
/-!
Hazards and the reset of memory: which bytes the output regions of the latched command hold, which host
accesses meet HazardFault while it is in flight, and what the reset input leaves of buffer memory
(spec/70_reset_and_hazards.md R200, R201, R204).
-/

namespace Sys2Proof.Machine

/-! ### The output regions of the latched command (R204) -/

theorem outputByte_iff_of_decode {s : State} {w : Word} {i : Instr} (hl : s.lcmd = some w)
    (hd : decode w = .ok i) {a : Nat} : OutputByte s a ↔ ∃ r ∈ outputRegionsOf s i, r.Has a := by
  simp only [OutputByte, outputRegions, hl, hd]

/-- A word that is not Legal has no output regions. -/
theorem not_outputByte_of_illegal {s : State} {w : Word} {e : DecodeError} (hl : s.lcmd = some w)
    (hd : decode w = .error e) (a : Nat) : ¬ OutputByte s a := by
  simp [OutputByte, outputRegions, hl, hd]

/-- An address in the regions of the pieces p < N. -/
theorem exists_piece_has_iff (s : State) (n a : Nat) :
    (∃ r ∈ (slots n).map (pieceRegion s), r.Has a) ↔ ∃ p : Fin 8, p.val < n ∧ (pieceRegion s p).Has a := by
  simp only [List.mem_map, exists_exists_and_eq_and, mem_slots]

theorem exists_dst_has_iff (s : State) (a : Nat) :
    (∃ r ∈ [dstRegion s], r.Has a) ↔ (dstRegion s).Has a := by
  simp only [List.mem_singleton, exists_eq_left]

/-! ### Host accesses while busy (R204) -/

section

variable {s : State} {a : Nat} (ha : a < memBytes s.cfg) (hb : s.status.busy = true)
include ha hb

theorem hostMemWr_hazard (b : Byte) : hostMemWr a b s = .fault .hazardFault := by
  rw [hostMemWr, if_neg (Nat.not_le.2 ha), if_pos hb]

theorem hostMemRd_hazard (ho : OutputByte s a) : hostMemRd a s = .fault .hazardFault := by
  rw [hostMemRd, if_neg (Nat.not_le.2 ha), if_pos ⟨hb, ho⟩]

/-- A byte read ends the run at the output-region bytes, the addresses with `P`, and at no others. -/
theorem step_memRd_inFlight {ps : List HostOp} {P : Prop} (hn : nextTurn s = .host)
    (hp : s.prog = .memRd a :: ps) (hP : OutputByte s a ↔ P) :
    (P → step s = .fault .hazardFault) ∧ (¬ P → ∃ t, step s = .next t) := by
  rw [step_hostOp hn hp, ← hP]
  exact ⟨hostMemRd_hazard (s := { s with turns := s.turns.tail, prog := ps }) ha hb, fun ho =>
    ⟨_, hostMemRd_inside (s := { s with turns := s.turns.tail, prog := ps }) ha fun h => ho h.2⟩⟩

end

/-- Settles O49: the regions that R204 names hold the bytes of `OutputByte`, command by command. -/
theorem hazardAccess : Obligations.HazardAccess := by
  intro s w a ps hn hb hl ha
  refine ⟨fun b hp => ?_, fun hp => ?_⟩
  · rw [step_hostOp hn hp]
    exact hostMemWr_hazard (s := { s with turns := s.turns.tail, prog := ps }) ha hb b
  · refine step_memRd_inFlight ha hb hn hp ?_
    cases hd : decode w with
    | error e => exact iff_of_false (not_outputByte_of_illegal hl hd a) id
    | ok i =>
      rw [outputByte_iff_of_decode hl hd]
      cases i with
      | genmask n => exact iff_of_false (by simp [outputRegionsOf]) id
      | scatter n k | permute n k => exact exists_piece_has_iff s (min n 8) a
      | gather n k | unpermute n k => exact exists_dst_has_iff s a

/-! ### Buffer memory across the reset input (R200, R201) -/

theorem settledBytes_read (s : State) (a : Nat) : (settledBytes s).read a = settledByte s a :=
  Memory.read_over s.mem s.stale a

/-- The reset input forgets the output-region bytes of the abandoned command, and no other. -/
theorem settledByte_resetInput (s : State) (a : Nat) :
    settledByte (resetInput s) a = if OutputByte s a then none else settledByte s a := by
  rw [settledByte, resetInput_mem, Memory.read_nil, Option.none_or, resetInput_stale,
    Memory.read_foldl_forget, settledBytes_read]

/-- Settles O51: the reset input is the next step, and `settledByte_resetInput` says what it keeps. -/
theorem resetKeepsMemory : Obligations.ResetKeepsMemory := by
  intro s hn
  have hread (a : Nat) := settledByte_resetInput (tookTurn s) a
  exact ⟨_, step_reset hn, fun a ho => (hread a).trans (if_neg ho), fun a ho => (hread a).trans (if_pos ho)⟩

end Sys2Proof.Machine
end
